-- ==== Sys2Proof/Word.lean ====
section
/-! DEFINITION. The value types of the spec: bytes, pixels, cache indexes, chunk kinds, headers, and the named error causes. -/

namespace Sys2Proof

/-- A byte, an integer in [0,255] (00_scope.md R12). -/
abbrev Byte := BitVec 8

/-- A cache slot number, an integer in [0,63] (00_scope.md R12). -/
abbrev Index := Fin 64

/-- Four ordered channels, each an 8-bit unsigned value (00_scope.md R12).
Two pixels are equal when all four channels are. -/
structure Pixel where
  r : Byte
  g : Byte
  b : Byte
  a : Byte
deriving DecidableEq, Repr, Inhabited

/-- The six chunk kinds. -/
inductive Kind where
  | rgb
  | rgba
  | index
  | diff
  | luma
  | run
deriving DecidableEq, Repr

/-- A hash of the pixel cache: any function from pixels to slots (41_pixel_cache.md R121, the parameter `HASH`).
Operations that hash take it as an argument, since every rule but R121 holds for any such function. -/
abbrev Hash := Pixel → Index

/-- The four header fields that a file carries (10_state.md R32). -/
structure Header where
  width : Nat
  height : Nat
  channels : Nat
  colorspace : Nat
deriving DecidableEq, Repr

/-- The causes of a FormatError, malformed external input (60_exceptions.md R211). -/
inductive FormatError where
  /-- The buffer is shorter than a header. -/
  | headerShort
  /-- The first four bytes are not `MAGIC`. -/
  | badMagic
  /-- The channel count is neither 3 nor 4. -/
  | badChannels
  /-- The colorspace tag is neither 0 nor 1. -/
  | badColorspace
  /-- The file is too short for a header and an end-of-stream marker. -/
  | truncatedStream
  /-- The file does not end in `EOS_MARKER`. -/
  | badEos
  /-- No byte is left where a lead byte is needed. -/
  | streamExhausted
  /-- The last chunk is cut short. -/
  | truncatedChunk
  /-- A RUN would pass the expected pixel count. -/
  | pixelCount
  /-- Bytes are left after the last expected pixel. -/
  | trailingBytes
deriving DecidableEq, Repr

/-- The causes of a ContractViolation, an operation called outside its contract (60_exceptions.md R212). -/
inductive ContractViolation where
  /-- A pixel without exactly four channels. -/
  | pixelLength
  /-- `ENC_INDEX` with an index outside [0,63]. -/
  | indexRange
  /-- A DIFF delta outside [-2,1]. -/
  | diffRange
  /-- A LUMA field outside its range. -/
  | lumaRange
  /-- A RUN count outside [1,62]. -/
  | runRange
  /-- A chunk parser given a chunk of another kind. -/
  | tagMismatch
  /-- A chunk parser given the wrong number of bytes. -/
  | chunkLength
  /-- A cache operation with an index outside [0,63]. -/
  | cacheIndex
  /-- `BUILD_HEADER` with an illegal field. -/
  | headerField
  /-- `ENCODE_FILE` with a pixel list whose length is not width times height. -/
  | pixelCount
  /-- A byte-array utility given an out-of-range argument. -/
  | utility
  /-- A step issued before a START, after the end of a pass or after a fault. -/
  | sequence
deriving DecidableEq, Repr

/-- An error of one of the two classes, with its cause (60_exceptions.md R210: there is no third class). -/
inductive Err where
  /-- A FormatError, recoverable at the stream boundary. -/
  | format (c : FormatError)
  /-- A ContractViolation, fatal. -/
  | contract (c : ContractViolation)
deriving DecidableEq, Repr

/-- What an operation that can raise gives: its result, or the error alone (60_exceptions.md R216). -/
abbrev Raises (α : Type) := Except Err α

end Sys2Proof
end

