-- ==== Sys2Proof/Config.lean ====
section
/-! DEFINITION. What an instance of the hardware fixes, and the free values.
The parameters whose value the spec took from general knowledge stand where a repair may mend them:
`HASH` in Machine/PixelCache.lean, the two full-byte tags in Decode.lean, `MAGIC` and `EOS_MARKER` in Machine/Header.lean. -/

namespace Sys2Proof

/-- `START_PIXEL`, the previous pixel at stream start (00_scope.md R7). -/
def Config.startPixel : Pixel := ⟨0, 0, 0, 255⟩

/-- `ZERO_PIXEL`, the content of every cache slot at stream start (00_scope.md R7). -/
def Config.zeroPixel : Pixel := ⟨0, 0, 0, 0⟩

/-- `RUN_MAX`, the largest count of one RUN chunk (00_scope.md R7). -/
abbrev Config.runMax : Nat := 62

/-- `HEADER_LEN`, the bytes of the header (00_scope.md R7). -/
abbrev Config.headerLen : Nat := 14

/-- `MAX_PIXELS`, the largest pixel count a pass accepts; `none` is the value the spec takes, unbounded
(00_scope.md R8, 92_eei_decisions.md D14). DESIGN CHOICE, log entry 13. -/
def Config.maxPixels : Option Nat := none

/-- FREE VALUE: the registers before the first stream start, by register number
(70_reset_and_hazards.md R242, treatment `any value` of U8). Log entry 14. -/
opaque Config.powerOnPixel : Nat → Pixel

/-- FREE VALUE: the counters before the first stream start, by register number (U8). Log entry 14. -/
opaque Config.powerOnNat : Nat → Nat

/-- FREE VALUE: `OUT_PIXELS` of a pass that raised, which no claim may read (45_stream_decoder.md R204, treatment
`any value` of 93_implementation_defined.md U7), by the error and the partial output. Log entry 31. -/
opaque Config.faultedPixels : Err → List Pixel → List Pixel

/-- FREE VALUE: whether the parser of a kind, given bytes whose tag and length are both wrong, reports the length.
The spec leaves it open (95_test_vectors.md V91), and whether two parsers given the same bytes report the same cause, so the
value is free for each kind. DESIGN CHOICE: it does not depend on a parser's other operand, `prev` or the cache. Log entry 16. -/
opaque Config.lengthReportedFirst : Kind → List Byte → Bool

end Sys2Proof
end

