-- ==== Sys2Proof/Syntax.lean ====
section
/-! DEFINITION. The instructions: the six chunk kinds with their decoded operands. -/

namespace Sys2Proof

/-- A chunk (10_state.md R33), one constructor per row of spec/opcode_table.json.
Operands are the decoded values of 00_scope.md R15: unbiased deltas, the count itself. -/
inductive Instr where
  /-- `RGB(r,g,b)`: raw red, green and blue, alpha from the previous pixel (30_encoding.md R72). -/
  | rgb (r g b : Byte)
  /-- `RGBA(r,g,b,a)`: all four channels raw (30_encoding.md R73). -/
  | rgba (r g b a : Byte)
  /-- `INDEX(idx)`: the pixel in cache slot `idx` (30_encoding.md R74). -/
  | index (idx : Index)
  /-- `DIFF(dr,dg,db)`: three channel deltas, each in [-2,1] (30_encoding.md R75). -/
  | diff (dr dg db : Int)
  /-- `LUMA(dg,drg,dbg)`: the green delta in [-32,31] and the red and blue deltas less the green one,
  each in [-8,7] (30_encoding.md R77). -/
  | luma (dg drg dbg : Int)
  /-- `RUN(count)`: `count` copies of the previous pixel, `count` in [1,62] (30_encoding.md R78). -/
  | run (count : Nat)
deriving DecidableEq, Repr

end Sys2Proof
end

