-- ==== Sys2Proof/WellFormed.lean ====
section
/-! DEFINITION. Which instructions have an encoding: the operand ranges of 10_state.md R33. -/

namespace Sys2Proof

/-- `lo ≤ v ≤ hi`, the closed ranges of 00_scope.md R11. -/
def inRange (lo hi v : Int) : Bool := decide (lo ≤ v) && decide (v ≤ hi)

/-- The contract violation that an out-of-range operand is, if there is one (60_exceptions.md R212).
RGB, RGBA and INDEX operands are in range by their types. -/
def Instr.violation : Instr → Option ContractViolation
  | .rgb _ _ _ => none
  | .rgba _ _ _ _ => none
  | .index _ => none
  | .diff dr dg db =>
    if inRange (-2) 1 dr && inRange (-2) 1 dg && inRange (-2) 1 db then none else some .diffRange
  | .luma dg drg dbg =>
    if inRange (-32) 31 dg && inRange (-8) 7 drg && inRange (-8) 7 dbg then none else some .lumaRange
  | .run count => if inRange 1 62 count then none else some .runRange

/-- Every operand is in its range, so the chunk has exactly one encoding (10_state.md R33). -/
def Instr.wellFormed (i : Instr) : Bool := i.violation.isNone

end Sys2Proof
end

