-- ==== Sys2Proof/Decode.lean ====
section
/-! DEFINITION. Chunk formats: dispatch on the lead byte, field extraction, the decoder and after it the encoder. -/

namespace Sys2Proof

/-- `TAG_RGB` (30_encoding.md R76). PRESUMED: which of FE and FF is RGB is general knowledge, log entry 9. -/
def tagRgb : Byte := 0xFE

/-- `TAG_RGBA` (30_encoding.md R76). PRESUMED, log entry 9. -/
def tagRgba : Byte := 0xFF

/-- `DIFF_BIAS` (00_scope.md R7). -/
def diffBias : Int := 2

/-- `LUMA_G_BIAS` (00_scope.md R7). -/
def lumaGreenBias : Int := 32

/-- `LUMA_RB_BIAS` (00_scope.md R7). -/
def lumaRedBlueBias : Int := 8

/-- `b[lo+width-1 : lo]`, read zero-extended (00_scope.md R11, 30_encoding.md R79). -/
def field (b : Byte) (lo width : Nat) : Nat := (b.extractLsb' lo width).toNat

/-- `KIND(b0)`, the full-byte tags first (30_encoding.md R80). -/
def kind (b0 : Byte) : Kind :=
  if b0 = tagRgb then .rgb
  else if b0 = tagRgba then .rgba
  else if field b0 6 2 = 0 then .index
  else if field b0 6 2 = 1 then .diff
  else if field b0 6 2 = 2 then .luma
  else .run

/-- `CHUNK_LEN(b0)` (30_encoding.md R83). -/
def chunkLen (b0 : Byte) : Nat :=
  if b0 = tagRgb then 4
  else if b0 = tagRgba then 5
  else if field b0 6 2 = 2 then 2
  else 1

/-- The kind of an instruction. -/
def Instr.kind : Instr → Kind
  | .rgb _ _ _ => .rgb
  | .rgba _ _ _ _ => .rgba
  | .index _ => .index
  | .diff _ _ _ => .diff
  | .luma _ _ _ => .luma
  | .run _ => .run

/-- The bytes a chunk of a kind takes (30_encoding.md R70). -/
def kindLength : Kind → Nat
  | .rgb => 4
  | .rgba => 5
  | .index => 1
  | .diff => 1
  | .luma => 2
  | .run => 1

/-- The length in bytes of an instruction (30_encoding.md R70). -/
def Instr.length (i : Instr) : Nat := kindLength i.kind

/-- The slot number in the lead byte of an INDEX chunk (30_encoding.md R74). -/
def indexField (b0 : Byte) : Index := ⟨field b0 0 6, (b0.extractLsb' 0 6).isLt⟩

/-- The DIFF operands (30_encoding.md R75, R79). PRESUMED: the places of the fields, log entry 10. -/
def diffFields (b0 : Byte) : Instr :=
  .diff (field b0 4 2 - diffBias) (field b0 2 2 - diffBias) (field b0 0 2 - diffBias)

/-- The LUMA operands (30_encoding.md R77, R79). PRESUMED: the nibble order of the second byte, log entry 11. -/
def lumaFields (b0 b1 : Byte) : Instr :=
  .luma (field b0 0 6 - lumaGreenBias) (field b1 4 4 - lumaRedBlueBias) (field b1 0 4 - lumaRedBlueBias)

/-- The RUN count (30_encoding.md R78, R79). -/
def runField (b0 : Byte) : Nat := field b0 0 6 + 1

/-- The instruction of a kind, from its lead byte and the bytes after it (43_chunk_decode.md R157).
DESIGN CHOICE: R157 defines it for the kind's length alone, and any other length is `CV_CHUNK_LENGTH`, as for the
parsers of R150; log entry 25. -/
def parsePayload (b0 : Byte) : Kind → List Byte → Raises Instr
  | .rgb, [r, g, b] => .ok (.rgb r g b)
  | .rgba, [r, g, b, a] => .ok (.rgba r g b a)
  | .index, [] => .ok (.index (indexField b0))
  | .diff, [] => .ok (diffFields b0)
  | .luma, [b1] => .ok (lumaFields b0 b1)
  | .run, [] => .ok (.run (runField b0))
  | _, _ => .error (.contract .chunkLength)

/-- `PARSE_CHUNK(bytes)` (43_chunk_decode.md R157).
DESIGN CHOICE: the empty sequence, for which R157 defines nothing, is `CV_CHUNK_LENGTH`; log entry 25. -/
def parseChunk : List Byte → Raises Instr
  | [] => .error (.contract .chunkLength)
  | b0 :: payload => parsePayload b0 (kind b0) payload

/-- Reads one chunk from the front of a byte sequence and gives the bytes after it.
The only ways to fail are those of length (30_encoding.md R82, 45_stream_decoder.md R199, R200). -/
def decode : List Byte → Raises (Instr × List Byte)
  | [] => .error (.format .streamExhausted)
  | b0 :: rest =>
    if (b0 :: rest).length < chunkLen b0 then .error (.format .truncatedChunk)
    else
      match parseChunk ((b0 :: rest).take (chunkLen b0)) with
      | .ok i => .ok (i, (b0 :: rest).drop (chunkLen b0))
      | .error e => .error e

/-- The byte of an integer, modulo 256. -/
def byteOf (v : Int) : Byte := BitVec.ofInt 8 v

/-- The bytes of a chunk by the formulas of 30_encoding.md R86, fields taken as they are. -/
def chunkBytes : Instr → List Byte
  | .rgb r g b => [tagRgb, r, g, b]
  | .rgba r g b a => [tagRgba, r, g, b, a]
  | .index idx => [byteOf idx.val]
  | .diff dr dg db => [byteOf (0x40 + (dr + diffBias) * 16 + (dg + diffBias) * 4 + (db + diffBias))]
  | .luma dg drg dbg =>
    [byteOf (0x80 + (dg + lumaGreenBias)),
     byteOf ((drg + lumaRedBlueBias) * 16 + (dbg + lumaRedBlueBias))]
  | .run count => [byteOf (0xC0 + (count - 1))]

/-- The encoder: the bytes of a well-formed chunk, the contract violation of an operand that has no encoding
(30_encoding.md R86). -/
def encode (i : Instr) : Raises (List Byte) :=
  match i.violation with
  | none => .ok (chunkBytes i)
  | some c => .error (.contract c)

/-- A chunk kind and its decimal operands, `NAME(a,b,c)` (30_encoding.md R86). -/
def chunkText (name : String) (operands : List String) : String :=
  name ++ "(" ++ String.intercalate "," operands ++ ")"

/-- The line of the textual syntax that a chunk is (30_encoding.md R86). -/
def Instr.text : Instr → String
  | .rgb r g b => chunkText "RGB" [r.toNat.repr, g.toNat.repr, b.toNat.repr]
  | .rgba r g b a => chunkText "RGBA" [r.toNat.repr, g.toNat.repr, b.toNat.repr, a.toNat.repr]
  | .index idx => chunkText "INDEX" [idx.val.repr]
  | .diff dr dg db => chunkText "DIFF" [toString dr, toString dg, toString db]
  | .luma dg drg dbg => chunkText "LUMA" [toString dg, toString drg, toString dbg]
  | .run count => chunkText "RUN" [count.repr]

/-- At most `k` chunks of a byte stream, read one after the other from its start (30_encoding.md R86).
DESIGN CHOICE: a stream whose last chunk is cut short gives the error `FE_TRUNCATED_CHUNK` alone, without the chunks
read before it, since R86 does not say; log entry 27. -/
def disassemble : Nat → List Byte → Raises (List Instr)
  | 0, _ => .ok []
  | _ + 1, [] => .ok []
  | k + 1, b :: bs =>
    match decode (b :: bs) with
    | .error e => .error e
    | .ok (i, rest) =>
      match disassemble k rest with
      | .error e => .error e
      | .ok is => .ok (i :: is)

/-- The `k` lowest bytes of a number, the least significant first. -/
def littleBytes : Nat → Nat → List Byte
  | 0, _ => []
  | k + 1, w => BitVec.ofNat 8 w :: littleBytes k (w / 256)

/-- The bytes of an instruction numbered as spec/opcode_table.json numbers its bits, zero above `nbits`,
up to the longest chunk (five bytes). -/
def tableBytes (nbits w : Nat) : List Byte := littleBytes 5 (w % 2 ^ nbits)

/-- The instruction the decoder reads from an instruction word of the opcode table. -/
def decodeTableWord (nbits w : Nat) : Option Instr :=
  match decode (tableBytes nbits w) with
  | .ok (i, _) => some i
  | .error _ => none

end Sys2Proof
end

