-- ==== Sys2Proof/Machine/Operands.lean ====
section
/-! DEFINITION. Channel arithmetic modulo 256, the delta unit, and the pixel each operand form names. -/

namespace Sys2Proof.Machine

/-- `add8(x, y)`, modulo 256 for any integer `y` (00_scope.md R13). -/
def add8 (x : Byte) (y : Int) : Byte := x + BitVec.ofInt 8 y

/-- `sub8(x, y)`, modulo 256 (00_scope.md R13). -/
def sub8 (x y : Byte) : Byte := x - y

/-- `s8(v)`, the two's-complement reading of a byte (00_scope.md R13). -/
def s8 (v : Byte) : Int := v.toInt

/-- `u8(d)`, the byte of an integer, inverse of `s8` on [-128,127] (00_scope.md R13). -/
def u8 (d : Int) : Byte := BitVec.ofInt 8 d

/-- Three signed channel deltas. -/
structure Delta where
  dr : Int
  dg : Int
  db : Int
deriving DecidableEq, Repr

/-- `DELTA(cur, prev)`; alpha is not part of it (42_chunk_encode.md R131). -/
def delta (cur prev : Pixel) : Delta :=
  { dr := s8 (sub8 cur.r prev.r)
    dg := s8 (sub8 cur.g prev.g)
    db := s8 (sub8 cur.b prev.b) }

/-- The pixel of an RGB chunk: raw channels, alpha of the previous pixel (43_chunk_decode.md R151). -/
def rgbPixel (prev : Pixel) (r g b : Byte) : Pixel := ⟨r, g, b, prev.a⟩

/-- The pixel of an RGBA chunk (43_chunk_decode.md R152). -/
def rgbaPixel (r g b a : Byte) : Pixel := ⟨r, g, b, a⟩

/-- The pixel of a DIFF chunk: each delta added modulo 256, alpha kept (43_chunk_decode.md R154). -/
def diffPixel (prev : Pixel) (dr dg db : Int) : Pixel :=
  ⟨add8 prev.r dr, add8 prev.g dg, add8 prev.b db, prev.a⟩

/-- The pixel of a LUMA chunk: red and blue deltas rebuilt from the green one, alpha kept (43_chunk_decode.md R155). -/
def lumaPixel (prev : Pixel) (dg drg dbg : Int) : Pixel :=
  ⟨add8 prev.r (dg + drg), add8 prev.g dg, add8 prev.b (dg + dbg), prev.a⟩

/-- A pixel from its channel bytes, red first (20_memory.md R56); any other number of channels is the contract
violation `CV_PIXEL_LENGTH` (60_exceptions.md R212). -/
def pixelOfBytes : List Byte → Raises Pixel
  | [r, g, b, a] => .ok ⟨r, g, b, a⟩
  | _ => .error (.contract .pixelLength)

/-- A pixel as four bytes, red first (20_memory.md R56). -/
def pixelBytes (p : Pixel) : List Byte := [p.r, p.g, p.b, p.a]

end Sys2Proof.Machine
end

