-- ==== Sys2Proof/Machine/State.lean ====
section
/-! DEFINITION. The state of the two agents, the operations of the host, the reasons a step can stop, and reset. -/

namespace Sys2Proof.Machine

/-- `CACHE`, 64 pixel slots (10_state.md R22). -/
abbrev Cache := Vector Pixel 64

/-- The bytes of the decoder's input buffer: addresses strictly rising, no entry equal to what an unlisted
address reads as (log entry 4). -/
abbrev Memory := List Host.Cell

/-- `STATUS`, the life of a pass (10_state.md R28). -/
inductive Status where
  /-- No pass started since power-on, or the last result was collected. -/
  | idle
  /-- A pass is running. -/
  | busy
  /-- The pass ended normally. -/
  | done
  /-- The pass raised an error, until the next stream start. -/
  | fault (e : Err)
deriving DecidableEq, Repr

/-- The stream encoder `ENC` (10_state.md R20). -/
structure Enc where
  /-- `STATUS` (R28). -/
  status : Status
  /-- `PREV`, the previous pixel (R21). -/
  prev : Pixel
  /-- `CACHE`, the pixel cache (R22). -/
  cache : Cache
  /-- `RUN`, the run counter (R23). -/
  run : Nat
  /-- `PIX_IN`, the pixels of a running `ENC_PASS` not yet read (20_memory.md R50, R51). -/
  pixIn : List Pixel
  /-- `OUT_BYTES`, the chunk stream emitted so far (20_memory.md R52). -/
  outBytes : List Byte
deriving DecidableEq, Repr

/-- The stream decoder `DEC` (10_state.md R20). -/
structure Dec where
  /-- `STATUS` (R28). -/
  status : Status
  /-- `PREV`, the previous pixel (R21). -/
  prev : Pixel
  /-- `CACHE`, the pixel cache (R22). -/
  cache : Cache
  /-- `BP`, the offset in `IN` of the next chunk's lead byte: the program counter (R24). -/
  bp : Nat
  /-- `CNT`, the pixels produced so far (R25). -/
  cnt : Nat
  /-- `IN`, the bytes of the input buffer (20_memory.md R53). -/
  mem : Memory
  /-- `L`, the length of `IN` (R24). -/
  len : Nat
  /-- `N`, the expected pixel count (R25). -/
  n : Nat
  /-- `OUT_PIXELS`, the pixels produced so far (20_memory.md R54); a free value once the pass raised (log entry 31). -/
  outPixels : List Pixel
deriving DecidableEq, Repr

/-- What the host can ask of an agent (70_reset_and_hazards.md R255, 92_eei_decisions.md D2). -/
inductive HostOp where
  /-- `ENC_START`. -/
  | encStart
  /-- `ENC_STEP(p, last)`. -/
  | encStep (p : Pixel) (last : Bool)
  /-- `ENC_PASS(P)`. -/
  | encPass (ps : List Pixel)
  /-- The host takes the encoder's result. -/
  | encCollect
  /-- `DEC_START(IN, N)`. -/
  | decStart (inp : List Byte) (n : Nat)
  /-- `DEC_STEP`. -/
  | decStep
  /-- `DEC_PASS(IN, N)`. -/
  | decPass (inp : List Byte) (n : Nat)
  /-- The host takes the decoder's result. -/
  | decCollect
deriving DecidableEq, Repr

/-- The whole machine. The two agents share nothing (10_state.md R20). -/
structure State where
  /-- The stream encoder. -/
  enc : Enc
  /-- The stream decoder. -/
  dec : Dec
  /-- The model's own field: host operations issued and not yet performed, oldest first (log entry 2). -/
  host : List HostOp
  /-- The model's own field: the decoder's last START was that of `DEC_PASS`, which runs to `DONE` or `FAULT`, and not
  `DEC_START` (60_exceptions.md R214; log entry 19). -/
  inDecPass : Bool
deriving DecidableEq, Repr

/-- Why the machine stops. -/
inductive Fault where
  /-- Raised by `step` when the host has issued nothing and neither agent can move: every pass is over or not
  started, or the encoder waits for a pixel. Safe: no state follows (60_exceptions.md R216, treatment `stuck` of
  93_implementation_defined.md U8; log entry 7). -/
  | noAgentCanMove
deriving DecidableEq, Repr

/-- Why the machine refuses. -/
inductive Refusal where
  /-- Raised by an arm of `exec` for an instruction without a meaning. Safe. No arm raises it now. -/
  | notModelled (mnemonic : String)
  /-- Raised by a decoder START whose pixel count passes `MAX_PIXELS`
  (93_implementation_defined.md U11, treatment `refuse`). Safe. Not reached while `MAX_PIXELS` is unbounded. -/
  | moreThanMaxPixels
deriving DecidableEq, Repr

/-- The encoder right after `ENC_START` (10_state.md R31). -/
def Enc.reset : Enc :=
  { status := .busy
    prev := Config.startPixel
    cache := Vector.replicate 64 Config.zeroPixel
    run := 0
    pixIn := []
    outBytes := [] }

/-- The decoder right after `DEC_START` on an empty buffer with no pixel expected (10_state.md R31, log entry 3). -/
def Dec.reset : Dec :=
  { status := .busy
    prev := Config.startPixel
    cache := Vector.replicate 64 Config.zeroPixel
    bp := 0
    cnt := 0
    mem := []
    len := 0
    n := 0
    outPixels := [] }

/-- Stream start is the reset of this hardware (70_reset_and_hazards.md R240, R241): both agents right after their START. -/
def State.reset : State := { enc := Enc.reset, dec := Dec.reset, host := [], inDecPass := false }

/-- The machine before any stream start: `IDLE`, every register a free value
(70_reset_and_hazards.md R242, 92_eei_decisions.md D28). Log entry 14. -/
def State.powerOn : State :=
  { enc :=
      { status := .idle
        prev := Config.powerOnPixel 0
        cache := Vector.ofFn fun i => Config.powerOnPixel (2 + i.val)
        run := Config.powerOnNat 0
        pixIn := []
        outBytes := [] }
    dec :=
      { status := .idle
        prev := Config.powerOnPixel 1
        cache := Vector.ofFn fun i => Config.powerOnPixel (66 + i.val)
        bp := Config.powerOnNat 1
        cnt := Config.powerOnNat 2
        mem := []
        len := 0
        n := 0
        outPixels := [] }
    host := []
    inDecPass := false }

end Sys2Proof.Machine
end

