-- ==== Sys2Proof/Machine/Flags.lean ====
section
/-! DEFINITION. The predicates rules test. The hardware has no condition codes (10_state.md R28). -/

namespace Sys2Proof.Machine

/-- `DIFF_OK` (42_chunk_encode.md R132). -/
def diffOk (d : Delta) : Bool := inRange (-2) 1 d.dr && inRange (-2) 1 d.dg && inRange (-2) 1 d.db

/-- `LUMA_OK`, the differences formed as integers (42_chunk_encode.md R133). -/
def lumaOk (d : Delta) : Bool :=
  inRange (-32) 31 d.dg && inRange (-8) 7 (d.dr - d.dg) && inRange (-8) 7 (d.db - d.dg)

/-- A run is open (10_state.md R23, R28). -/
def Enc.runOpen (e : Enc) : Bool := decide (0 < e.run)

/-- An `ENC_PASS` is running: it has a pixel of `PIX_IN` to read (20_memory.md R51). `ENC_START` leaves `PIX_IN` empty, and
the last pixel ends the pass, so an encoder that is `BUSY` with no pixel to read is one that a host steps. -/
def Enc.canMove (e : Enc) : Bool := decide (e.status = .busy) && !e.pixIn.isEmpty

/-- A decoder step may be issued: the pass is running and a pixel is still expected
(45_stream_decoder.md R192, 60_exceptions.md R212 `CV_SEQUENCE`). -/
def Dec.ready (d : Dec) : Bool := decide (d.status = .busy) && decide (d.cnt < d.n)

/-- A `DEC_PASS` is running (45_stream_decoder.md R191). -/
def State.decPassRunning (s : State) : Bool := decide (s.dec.status = .busy) && s.inDecPass

/-- A pass is running that nothing can suspend or redirect: an `ENC_PASS` or a `DEC_PASS` (60_exceptions.md R214). -/
def State.passRunning (s : State) : Bool := s.decPassRunning || s.enc.canMove

/-- The decoder moves by itself: in a `DEC_PASS` always, after `DEC_START` once the host queue is empty (log entry 26). -/
def State.decoderMoves (s : State) : Bool :=
  s.decPassRunning || decide (s.dec.status = .busy) && s.host.isEmpty

end Sys2Proof.Machine
end

