-- ==== Sys2Proof/Machine/PixelCache.lean ====
section
/-! DEFINITION. The pixel cache: the hash, lookup, store and the encoder's hit test. -/

namespace Sys2Proof.Machine

/-- `HASH(p) = (3*r + 5*g + 7*b + 11*a) mod 64` on unsigned channels (41_pixel_cache.md R121).
PRESUMED: the formula is general knowledge, log entry 8. -/
def codecHash : Hash := fun p =>
  ⟨(3 * p.r.toNat + 5 * p.g.toNat + 7 * p.b.toNat + 11 * p.a.toNat) % 64, Nat.mod_lt _ (by decide)⟩

/-- `CACHE[i]` (41_pixel_cache.md R122). -/
def cacheLookup (c : Cache) (i : Index) : Pixel := c.get i

/-- `CACHE[i] <- p`, an unconditional overwrite of one slot (41_pixel_cache.md R123). -/
def cacheStore (c : Cache) (i : Index) (p : Pixel) : Cache := c.set i.val p i.isLt

/-- `CACHE_HIT(p)` (41_pixel_cache.md R126). -/
def cacheHit (H : Hash) (c : Cache) (p : Pixel) : Bool := decide (cacheLookup c (H p) = p)

/-- An integer as a slot number, if it is one. -/
def toIndex (i : Int) : Option Index :=
  if h : 0 ≤ i ∧ i < 64 then some ⟨i.toNat, by omega⟩ else none

/-- `CACHE_LOOKUP` called with any integer (41_pixel_cache.md R122, R127). -/
def cacheLookupAt (c : Cache) (i : Int) : Raises Pixel :=
  match toIndex i with
  | some j => .ok (cacheLookup c j)
  | none => .error (.contract .cacheIndex)

/-- `CACHE_STORE` called with any integer (41_pixel_cache.md R123, R127). -/
def cacheStoreAt (c : Cache) (i : Int) (p : Pixel) : Raises Cache :=
  match toIndex i with
  | some j => .ok (cacheStore c j p)
  | none => .error (.contract .cacheIndex)

end Sys2Proof.Machine
end

