-- ==== Sys2Proof/Machine/Ops.lean ====
section
/-! DEFINITION. The named operations over streams and registers, error entry, stream start and the end of a pass. -/

namespace Sys2Proof.Machine

/-- What an address of `IN` with no entry reads as: a zero byte is stored by having no entry (log entry 4). -/
def unlistedByte : Byte := 0

/-- The entry for a byte at an address, none if the byte is what an unlisted address reads as. -/
def memoryEntry (a : Nat) (v : Byte) : Memory := if v = unlistedByte then [] else [(a, v)]

/-- `IN[a]`. -/
def memoryRead : Memory → Nat → Byte
  | [], _ => unlistedByte
  | (k, v) :: t, a => if k = a then v else memoryRead t a

/-- Replaces one byte and keeps the canonical form. -/
def memoryWrite : Memory → Nat → Byte → Memory
  | [], a, v => memoryEntry a v
  | (k, w) :: t, a, v =>
    if a < k then memoryEntry a v ++ (k, w) :: t
    else if a = k then memoryEntry a v ++ t
    else (k, w) :: memoryWrite t a v

/-- Writes a byte sequence at rising addresses. -/
def memoryLoad : Memory → Nat → List Byte → Memory
  | m, _, [] => m
  | m, a, b :: bs => memoryLoad (memoryWrite m a b) (a + 1) bs

/-- The canonical form: addresses strictly rising and at least `lo`, no entry equal to an unlisted byte. -/
def memoryWfFrom : Nat → Memory → Bool
  | _, [] => true
  | lo, (k, v) :: t => decide (lo ≤ k) && decide (v ≠ unlistedByte) && memoryWfFrom (k + 1) t

/-- The canonical form of the decoder's memory (log entry 4). -/
def Memory.wf (m : Memory) : Bool := memoryWfFrom 0 m

/-- `[IN[a], ..., IN[a+n-1]]`, lowest address first. -/
def memoryBytes (m : Memory) : Nat → Nat → List Byte
  | _, 0 => []
  | a, k + 1 => memoryRead m a :: memoryBytes m (a + 1) k

/-- `MemRead(addr, n)`, defined only when `addr + n ≤ L` (20_memory.md R53). -/
def Dec.memRead (d : Dec) (addr n : Nat) : Option (List Byte) :=
  if addr + n ≤ d.len then some (memoryBytes d.mem addr n) else none

/-- `Produce(p)` (20_memory.md R54). -/
def Dec.produce (d : Dec) (p : Pixel) : Dec :=
  { d with outPixels := d.outPixels ++ [p], cnt := d.cnt + 1 }

/-- `repeat k times: Produce(p)` (45_stream_decoder.md R192). -/
def Dec.produceTimes (d : Dec) (k : Nat) (p : Pixel) : Dec :=
  match k with
  | 0 => d
  | k + 1 => (d.produce p).produceTimes k p

/-- `CACHE[HASH(p)] <- p` (41_pixel_cache.md R124). -/
def Dec.store (H : Hash) (d : Dec) (p : Pixel) : Dec := { d with cache := cacheStore d.cache (H p) p }

/-- `PREV <- p` (10_state.md R21). -/
def Dec.setPrev (d : Dec) (p : Pixel) : Dec := { d with prev := p }

/-- `BP <- BP + k`, the only change `BP` has (45_stream_decoder.md R193). -/
def Dec.advance (d : Dec) (k : Nat) : Dec := { d with bp := d.bp + k }

/-- What DIFF, LUMA, RGB and RGBA do with their pixel: store, produce, become the previous pixel; then the
chunk's length is passed (45_stream_decoder.md R192, R197). -/
def Dec.codeStored (H : Hash) (d : Dec) (p : Pixel) (length : Nat) : Dec :=
  (((d.store H p).produce p).setPrev p).advance length

/-- What INDEX does with its pixel: as `codeStored` without the store (45_stream_decoder.md R196). -/
def Dec.codeUnstored (d : Dec) (p : Pixel) (length : Nat) : Dec :=
  ((d.produce p).setPrev p).advance length

/-- Issues a chunk to the decoder: out of sequence it is `CV_SEQUENCE` (60_exceptions.md R212); with an operand that
has no encoding it is that operand's contract violation (log entry 17, as is which of the two comes first);
otherwise the chunk's own effect. -/
def Dec.issue (d : Dec) (i : Instr) (effect : Raises Dec) : Raises Dec :=
  if d.ready then
    match i.violation with
    | none => effect
    | some c => .error (.contract c)
  else .error (.contract .sequence)

/-- Fetches and parses the chunk at `BP` (45_stream_decoder.md R192, R199, R200). -/
def Dec.fetch (d : Dec) : Raises Instr :=
  if d.len ≤ d.bp then .error (.format .streamExhausted)
  else
    match d.memRead d.bp (chunkLen (memoryRead d.mem d.bp)) with
    | none => .error (.format .truncatedChunk)
    | some ch => parseChunk ch

/-- Error entry in the decoder: every register keeps its value and `STATUS` is written (60_exceptions.md R216). The partial
output is no longer there to be read: `OUT_PIXELS` is a free value (45_stream_decoder.md R204; log entry 31). -/
def Dec.raise (d : Dec) (e : Err) : Dec :=
  { d with status := .fault e, outPixels := Config.faultedPixels e d.outPixels }

/-- Error entry in the encoder (60_exceptions.md R216). -/
def Enc.raise (e : Enc) (err : Err) : Enc := { e with status := .fault err }

/-- ERROR ENTRY, the one way a decoder operation ends in the machine: its result, or, if it raises, the old state
with `STATUS` alone changed and its partial output unreadable (60_exceptions.md R211, R212, R216; log entries 6, 31). -/
def State.resolveDec (s : State) : Raises Dec → Host.Outcome State Fault Refusal
  | .ok d => .next { s with dec := d }
  | .error e => .next { s with dec := s.dec.raise e }

/-- Error entry for an encoder operation (60_exceptions.md R216). -/
def State.resolveEnc (s : State) : Raises Enc → Host.Outcome State Fault Refusal
  | .ok e => .next { s with enc := e }
  | .error err => .next { s with enc := s.enc.raise err }

/-- `ENC_START`, the only way out of an encoder `FAULT` (44_stream_encoder.md R170, 60_exceptions.md R217). -/
def encStart : Enc := Enc.reset

/-- `DEC_START(IN, N)`, the only way out of a decoder `FAULT` (45_stream_decoder.md R190, 60_exceptions.md R217). -/
def decStart (inp : List Byte) (n : Nat) : Dec :=
  { Dec.reset with mem := memoryLoad [] 0 inp, len := inp.length, n := n }

/-- The test a decode pass makes when no more pixels are expected: `DONE`, or bytes are left over
(45_stream_decoder.md R191, R198, R202). -/
def Dec.endPass (d : Dec) : Dec :=
  if d.status = .busy ∧ ¬ d.cnt < d.n then
    if d.bp = d.len then { d with status := .done } else d.raise (.format .trailingBytes)
  else d

/-- `Emit(bs)` of a serialiser's result (20_memory.md R52). -/
def Enc.emit (e : Enc) : Raises (List Byte) → Raises Enc
  | .ok bs => .ok { e with outBytes := e.outBytes ++ bs }
  | .error err => .error err

/-- The host takes a result: `DONE` becomes `IDLE`, a `FAULT` is sticky, a running pass has no result
(10_state.md R28; log entry 18). -/
def Status.collect : Status → Status
  | .done => .idle
  | .idle => .idle
  | .busy => .busy
  | .fault e => .fault e

/-- The result of a decode pass: the pixels only if it ended normally, the error alone if it raised
(45_stream_decoder.md R204). -/
def Dec.result (d : Dec) : Option (Raises (List Pixel)) :=
  match d.status with
  | .done => some (.ok d.outPixels)
  | .fault e => some (.error e)
  | .idle => none
  | .busy => none

/-- The result of an encode pass (70_reset_and_hazards.md R255: complete only when `DONE`). -/
def Enc.result (e : Enc) : Option (Raises (List Byte)) :=
  match e.status with
  | .done => some (.ok e.outBytes)
  | .fault err => some (.error err)
  | .idle => none
  | .busy => none

/-- Places a byte sequence where the decoder fetches next and makes the pass long enough to run it:
`L` reaches past the bytes and `N` lies more than the longest RUN beyond `CNT` (log entry 3). -/
def Dec.placeProgram (d : Dec) (bs : List Byte) : Dec :=
  { d with
    status := .busy
    mem := memoryLoad d.mem d.bp bs
    len := max d.len (d.bp + bs.length)
    n := max d.n (d.cnt + Config.runMax + 1) }

end Sys2Proof.Machine
end

