-- ==== Sys2Proof/Machine/Cached.lean ====
section
/-! DEFINITION. The meaning of INDEX (45_stream_decoder.md R196). -/

namespace Sys2Proof.Machine

/-- Executes `INDEX(idx)` in the decoder: the slot is read, not written (R196). -/
def Dec.index (idx : Index) (d : Dec) : Raises Dec :=
  d.issue (.index idx) (.ok (d.codeUnstored (cacheLookup d.cache idx) 1))

/-- INDEX. -/
def execIndex (idx : Index) (s : State) : Host.Outcome State Fault Refusal :=
  s.resolveDec (s.dec.index idx)

end Sys2Proof.Machine
end

