-- ==== Sys2Proof/Machine/Delta.lean ====
section
/-! DEFINITION. The meanings of DIFF and LUMA (45_stream_decoder.md R197). -/

namespace Sys2Proof.Machine

/-- Executes `DIFF(dr,dg,db)` in the decoder, for any hash (R192, R197). -/
def Dec.diff (H : Hash) (dr dg db : Int) (d : Dec) : Raises Dec :=
  d.issue (.diff dr dg db) (.ok (d.codeStored H (diffPixel d.prev dr dg db) 1))

/-- DIFF. -/
def execDiff (dr dg db : Int) (s : State) : Host.Outcome State Fault Refusal :=
  s.resolveDec (s.dec.diff codecHash dr dg db)

/-- Executes `LUMA(dg,drg,dbg)` in the decoder, for any hash (R192, R197). -/
def Dec.luma (H : Hash) (dg drg dbg : Int) (d : Dec) : Raises Dec :=
  d.issue (.luma dg drg dbg) (.ok (d.codeStored H (lumaPixel d.prev dg drg dbg) 2))

/-- LUMA. -/
def execLuma (dg drg dbg : Int) (s : State) : Host.Outcome State Fault Refusal :=
  s.resolveDec (s.dec.luma codecHash dg drg dbg)

end Sys2Proof.Machine
end

