-- ==== Sys2Proof/Machine/Raw.lean ====
section
/-! DEFINITION. The meanings of RGB and RGBA (45_stream_decoder.md R197). -/

namespace Sys2Proof.Machine

/-- Executes `RGB(r,g,b)` in the decoder, for any hash (R192, R197). -/
def Dec.rgb (H : Hash) (r g b : Byte) (d : Dec) : Raises Dec :=
  d.issue (.rgb r g b) (.ok (d.codeStored H (rgbPixel d.prev r g b) 4))

/-- RGB. -/
def execRgb (r g b : Byte) (s : State) : Host.Outcome State Fault Refusal :=
  s.resolveDec (s.dec.rgb codecHash r g b)

/-- Executes `RGBA(r,g,b,a)` in the decoder, for any hash (R192, R197). -/
def Dec.rgba (H : Hash) (r g b a : Byte) (d : Dec) : Raises Dec :=
  d.issue (.rgba r g b a) (.ok (d.codeStored H (rgbaPixel r g b a) 5))

/-- RGBA. -/
def execRgba (r g b a : Byte) (s : State) : Host.Outcome State Fault Refusal :=
  s.resolveDec (s.dec.rgba codecHash r g b a)

end Sys2Proof.Machine
end

