-- ==== Sys2Proof/Machine/Repeat.lean ====
section
/-! DEFINITION. The meaning of RUN (45_stream_decoder.md R195, R201). -/

namespace Sys2Proof.Machine

/-- Executes `RUN(count)` in the decoder: `count` copies of `PREV`, or, past the expected pixel count, none and
`FE_PIXEL_COUNT`; the cache and `PREV` are untouched (R192, R195, R201). -/
def Dec.repeatPrev (count : Nat) (d : Dec) : Raises Dec :=
  d.issue (.run count)
    (if d.n < d.cnt + count then .error (.format .pixelCount)
     else .ok ((d.produceTimes count d.prev).advance 1))

/-- RUN. -/
def execRun (count : Nat) (s : State) : Host.Outcome State Fault Refusal :=
  s.resolveDec (s.dec.repeatPrev count)

end Sys2Proof.Machine
end

