-- ==== Sys2Proof/Machine/Decoder.lean ====
section
/-! DEFINITION. The stream decoder as a fold of steps (45_stream_decoder.md), for any hash. -/

namespace Sys2Proof.Machine

/-- The decoder's effect of one chunk (R192). -/
def Dec.exec (H : Hash) (i : Instr) (d : Dec) : Raises Dec :=
  match i with
  | .rgb r g b => d.rgb H r g b
  | .rgba r g b a => d.rgba H r g b a
  | .index idx => d.index idx
  | .diff dr dg db => d.diff H dr dg db
  | .luma dg drg dbg => d.luma H dg drg dbg
  | .run count => d.repeatPrev count

/-- `DEC_STEP` (R192). -/
def Dec.step (H : Hash) (d : Dec) : Raises Dec :=
  if d.ready then
    match d.fetch with
    | .ok i => d.exec H i
    | .error e => .error e
  else .error (.contract .sequence)

/-- At most `k` turns of the loop of `DEC_PASS` (R191). -/
def decSteps (H : Hash) : Nat → Dec → Raises Dec
  | 0, d => .ok d
  | k + 1, d =>
    if d.cnt < d.n then
      match d.step H with
      | .ok d' => decSteps H k d'
      | .error e => .error e
    else .ok d

/-- `DEC_PASS(IN, N)`: at most `N` steps, since each adds at least one pixel (R191). -/
def decPass (H : Hash) (inp : List Byte) (n : Nat) : Raises (List Pixel) :=
  match decSteps H n (decStart inp n) with
  | .error e => .error e
  | .ok d => if d.bp ≠ d.len then .error (.format .trailingBytes) else .ok d.outPixels

end Sys2Proof.Machine
end

