-- ==== Sys2Proof/Machine/ChunkEncode.lean ====
section
/-! DEFINITION. The six serialisers (42_chunk_encode.md). They read and write no state (R130). -/

namespace Sys2Proof.Machine

/-- `ENC_RGB(p)`; the alpha is not encoded (R134). -/
def encRgb (p : Pixel) : Raises (List Byte) := .ok (chunkBytes (.rgb p.r p.g p.b))

/-- `ENC_RGBA(p)` (R135). -/
def encRgba (p : Pixel) : Raises (List Byte) := .ok (chunkBytes (.rgba p.r p.g p.b p.a))

/-- `ENC_INDEX(idx)` (R136). -/
def encIndex (idx : Int) : Raises (List Byte) :=
  match toIndex idx with
  | some i => .ok (chunkBytes (.index i))
  | none => .error (.contract .indexRange)

/-- `ENC_DIFF(dr,dg,db)` (R137). -/
def encDiff (d : Delta) : Raises (List Byte) :=
  if diffOk d then .ok (chunkBytes (.diff d.dr d.dg d.db)) else .error (.contract .diffRange)

/-- `ENC_LUMA(dr,dg,db)`, which forms the differences from green itself (R138). -/
def encLuma (d : Delta) : Raises (List Byte) :=
  if lumaOk d then .ok (chunkBytes (.luma d.dg (d.dr - d.dg) (d.db - d.dg)))
  else .error (.contract .lumaRange)

/-- `ENC_RUN(count)` (R139). -/
def encRun (count : Int) : Raises (List Byte) :=
  if inRange 1 Config.runMax count then .ok (chunkBytes (.run count.toNat))
  else .error (.contract .runRange)

end Sys2Proof.Machine
end

