-- ==== Sys2Proof/Machine/Encoder.lean ====
section
/-! DEFINITION. The stream encoder (44_stream_encoder.md): the run detector, the chunk selector and the pass. -/

namespace Sys2Proof.Machine

/-- Emits the open run and closes it (R173, R174). -/
def Enc.flushRun (e : Enc) : Raises Enc :=
  match e.emit (encRun e.run) with
  | .ok e' => .ok { e' with run := 0 }
  | .error err => .error err

/-- Step 1, run extension; the flush test comes after the increment (R173). -/
def Enc.extendRun (last : Bool) (e : Enc) : Raises Enc :=
  if e.run + 1 = Config.runMax ∨ last = true then Enc.flushRun { e with run := e.run + 1 }
  else .ok { e with run := e.run + 1 }

/-- Step 2, run flush before divergence (R174). -/
def Enc.closeRun (e : Enc) : Raises Enc := if e.runOpen then e.flushRun else .ok e

/-- The chunk of a pixel that misses the cache: steps 5 and 6, the cheapest that applies (R177, R178). -/
def missChunk (prev p : Pixel) : Raises (List Byte) :=
  if p.a = prev.a then
    let d := delta p prev
    if diffOk d then encDiff d
    else if lumaOk d then encLuma d
    else encRgb p
  else encRgba p

/-- Steps 3 to 7, for a pixel that differs from the previous one: a hit emits INDEX and stores nothing, a miss stores
and emits one of the other chunks; the previous pixel advances either way (R175 to R179). -/
def Enc.codePixel (H : Hash) (p : Pixel) (e : Enc) : Raises Enc :=
  let chunk := if cacheHit H e.cache p then encIndex (H p).val else missChunk e.prev p
  let cache := if cacheHit H e.cache p then e.cache else cacheStore e.cache (H p) p
  match { e with cache := cache }.emit chunk with
  | .ok e' => .ok { e' with prev := p }
  | .error err => .error err

/-- The body of `ENC_STEP(p, last)` (R172). -/
def Enc.body (H : Hash) (p : Pixel) (last : Bool) (e : Enc) : Raises Enc :=
  if p = e.prev then e.extendRun last
  else
    match e.closeRun with
    | .ok e' => e'.codePixel H p
    | .error err => .error err

/-- `ENC_STEP(p, last)`: out of sequence it is `CV_SEQUENCE`; after the pixel marked `last` the pass is `DONE`
(R172, R185, 10_state.md R28). -/
def Enc.step (H : Hash) (p : Pixel) (last : Bool) (e : Enc) : Raises Enc :=
  if e.status = .busy then
    match e.body H p last with
    | .ok e' => .ok (if last then { e' with status := .done } else e')
    | .error err => .error err
  else .error (.contract .sequence)

/-- One turn of a running pass: the next pixel of `PIX_IN`, marked `last` when none follows it
(20_memory.md R51, 10_state.md R26). -/
def Enc.passStep (H : Hash) (e : Enc) : Raises Enc :=
  match e.pixIn with
  | [] => .error (.contract .sequence)
  | p :: rest =>
    match e.step H p rest.isEmpty with
    | .ok e' => .ok { e' with pixIn := rest }
    | .error err => .error err

/-- The start of `ENC_PASS(P)`; with no pixel the pass is over at once (R171, 70_reset_and_hazards.md R253). -/
def encPassStart (ps : List Pixel) : Enc :=
  { encStart with status := if ps.isEmpty then .done else .busy, pixIn := ps }

/-- The steps of a pass over its first `k` pixels, the final pixel of the whole list marked `last` (R171). -/
def encSteps (H : Hash) : Nat → List Pixel → Enc → Raises Enc
  | 0, _, e => .ok e
  | _ + 1, [], e => .ok e
  | k + 1, p :: rest, e =>
    match e.step H p rest.isEmpty with
    | .ok e' => encSteps H k rest e'
    | .error err => .error err

/-- `ENC_PASS(P)` (R171). -/
def encPass (H : Hash) (ps : List Pixel) : Raises (List Byte) :=
  match encSteps H ps.length ps encStart with
  | .ok e => .ok e.outBytes
  | .error err => .error err

end Sys2Proof.Machine
end

