-- ==== Sys2Proof/Machine/Turn.lean ====
section
/-! DEFINITION. Who moves next, and what each host operation does (70_reset_and_hazards.md R255). -/

namespace Sys2Proof.Machine

/-- After a chunk's effect, the end-of-pass test of the decoder (45_stream_decoder.md R191; log entry 5). -/
def thenEndPass : Host.Outcome State Fault Refusal → Host.Outcome State Fault Refusal
  | .next s => .next { s with dec := s.dec.endPass }
  | .fault f => .fault f
  | .refused r => .refused r

/-- Fetches the decoder's next chunk and runs it (45_stream_decoder.md R192). -/
def chunkTurn (run : Instr → State → Host.Outcome State Fault Refusal) (s : State) :
    Host.Outcome State Fault Refusal :=
  match s.dec.fetch with
  | .ok i => thenEndPass (run i s)
  | .error e => s.resolveDec (.error e)

/-- One turn of the loop of `DEC_PASS` (45_stream_decoder.md R191). -/
def decoderTurn (run : Instr → State → Host.Outcome State Fault Refusal) (s : State) :
    Host.Outcome State Fault Refusal :=
  if s.dec.cnt < s.dec.n then chunkTurn run s else .next { s with dec := s.dec.endPass }

/-- A decoder START, by `DEC_PASS` or not; a pass larger than `MAX_PIXELS` is refused (93_implementation_defined.md U11). -/
def startDecoder (s : State) (n : Nat) (d : Dec) (byPass : Bool) : Host.Outcome State Fault Refusal :=
  match Config.maxPixels with
  | none => .next { s with dec := d, inDecPass := byPass }
  | some m => if m < n then .refused .moreThanMaxPixels else .next { s with dec := d, inDecPass := byPass }

/-- Performs one host operation (70_reset_and_hazards.md R255). DESIGN CHOICE: a `DEC_STEP` of a decoder that is BUSY with
`CNT = N`, as after `DEC_START(IN, 0)`, is `CV_SEQUENCE`; 45_stream_decoder.md R192 gives the precondition `CNT < N` alone and
60_exceptions.md R212 does not list the case; log entry 30. -/
def perform (run : Instr → State → Host.Outcome State Fault Refusal) (op : HostOp) (s : State) :
    Host.Outcome State Fault Refusal :=
  match op with
  | .encStart => .next { s with enc := encStart }
  | .encStep p last => s.resolveEnc (s.enc.step codecHash p last)
  | .encPass ps => .next { s with enc := encPassStart ps }
  | .encCollect => .next { s with enc := { s.enc with status := s.enc.status.collect } }
  | .decStart inp n => startDecoder s n (decStart inp n) false
  | .decStep => if s.dec.ready then chunkTurn run s else s.resolveDec (.error (.contract .sequence))
  | .decPass inp n => startDecoder s n (decStart inp n).endPass true
  | .decCollect => .next { s with dec := { s.dec with status := s.dec.status.collect } }

/-- One turn of the machine. A running `DEC_PASS` or `ENC_PASS` moves first and runs to `DONE` or `FAULT`, whatever the host
has queued (60_exceptions.md R214; log entry 19); else the oldest host operation is performed.
DESIGN CHOICE: once the queue is empty a decoder that `DEC_START` started runs on by itself, while an encoder that
`ENC_START` started waits for an `ENC_STEP`; log entry 26. The order of the two agents is log entry 1. -/
def turn (run : Instr → State → Host.Outcome State Fault Refusal) (s : State) :
    Host.Outcome State Fault Refusal :=
  if s.decoderMoves then decoderTurn run s
  else if s.enc.canMove then s.resolveEnc (s.enc.passStep codecHash)
  else
    match s.host with
    | op :: rest => perform run op { s with host := rest }
    | [] => .fault .noAgentCanMove

/-- Places a program at the decoder's `BP` as a running `DEC_PASS`, so that the next turn runs it (log entry 3). -/
def placeProgram (s : State) (bs : List Byte) : State :=
  { s with dec := s.dec.placeProgram bs, inDecPass := true }

end Sys2Proof.Machine
end

