-- ==== Sys2Proof/Machine/Step.lean ====
section
/-! DEFINITION. One step of the machine, and the placing of an instruction where the next step fetches it. -/

namespace Sys2Proof.Machine

/-- One step: one host operation, one chunk, or one pixel (00_scope.md R10). -/
def step (s : State) : Host.Outcome State Fault Refusal := turn exec s

/-- `s` with an instruction word of the opcode table stored where `step` fetches next (log entry 3). -/
def State.withFetchWord (s : State) (nbits w : Nat) : State := placeProgram s (tableBytes nbits w)

end Sys2Proof.Machine
end

