-- ==== Sys2Proof/Machine/ChunkDecode.lean ====
section
/-! DEFINITION. The six parsers called on bytes (43_chunk_decode.md). They change no state (R150). -/

namespace Sys2Proof.Machine

/-- The contract check of every parser: the kind's length and the kind's lead byte (R150).
Where both are wrong the cause is a free choice of each parser (95_test_vectors.md V91, log entry 16). -/
def checkChunk (k : Kind) (bs : List Byte) : Option ContractViolation :=
  let badLength := decide (bs.length ≠ kindLength k)
  let badTag := match bs with
    | [] => false
    | b0 :: _ => decide (kind b0 ≠ k)
  if badLength && badTag then
    some (if Config.lengthReportedFirst k bs then .chunkLength else .tagMismatch)
  else if badLength then some .chunkLength
  else if badTag then some .tagMismatch
  else none

/-- Runs a parser on checked bytes. -/
def parsed {α : Type} (k : Kind) (bs : List Byte) (f : Instr → Raises α) : Raises α :=
  match checkChunk k bs with
  | some c => .error (.contract c)
  | none =>
    match parseChunk bs with
    | .ok i => f i
    | .error e => .error e

/-- `DEC_RGB(prev, [b0,b1,b2,b3])` (R151). -/
def decRgb (prev : Pixel) (bs : List Byte) : Raises Pixel :=
  parsed .rgb bs fun i =>
    match i with
    | .rgb r g b => .ok (rgbPixel prev r g b)
    | _ => .error (.contract .tagMismatch)

/-- `DEC_RGBA([b0,b1,b2,b3,b4])` (R152). -/
def decRgba (bs : List Byte) : Raises Pixel :=
  parsed .rgba bs fun i =>
    match i with
    | .rgba r g b a => .ok (rgbaPixel r g b a)
    | _ => .error (.contract .tagMismatch)

/-- `DEC_INDEX(CACHE, [b0])` (R153). -/
def decIndex (c : Cache) (bs : List Byte) : Raises Pixel :=
  parsed .index bs fun i =>
    match i with
    | .index idx => .ok (cacheLookup c idx)
    | _ => .error (.contract .tagMismatch)

/-- `DEC_DIFF(prev, [b0])` (R154). -/
def decDiff (prev : Pixel) (bs : List Byte) : Raises Pixel :=
  parsed .diff bs fun i =>
    match i with
    | .diff dr dg db => .ok (diffPixel prev dr dg db)
    | _ => .error (.contract .tagMismatch)

/-- `DEC_LUMA(prev, [b0,b1])` (R155). -/
def decLuma (prev : Pixel) (bs : List Byte) : Raises Pixel :=
  parsed .luma bs fun i =>
    match i with
    | .luma dg drg dbg => .ok (lumaPixel prev dg drg dbg)
    | _ => .error (.contract .tagMismatch)

/-- `DEC_RUN([b0])`, a count (R156). -/
def decRun (bs : List Byte) : Raises Nat :=
  parsed .run bs fun i =>
    match i with
    | .run count => .ok count
    | _ => .error (.contract .tagMismatch)

/-- The parser `DEC_STEP` calls for the pixel of a storing chunk, by the chunk's kind (45_stream_decoder.md R192). -/
def storedPixelParser (k : Kind) (prev : Pixel) (bs : List Byte) : Option (Raises Pixel) :=
  match k with
  | .rgb => some (decRgb prev bs)
  | .rgba => some (decRgba bs)
  | .diff => some (decDiff prev bs)
  | .luma => some (decLuma prev bs)
  | .index => none
  | .run => none

end Sys2Proof.Machine
end

