-- ==== Sys2Proof/Machine/Header.lean ====
section
/-! DEFINITION. The 14-byte header, big-endian integers and the byte-array utilities (40_header_and_framing.md). -/

namespace Sys2Proof.Machine

/-- `MAGIC`, ASCII "qoif" (R100). PRESUMED, log entry 12. -/
def magic : List Byte := [0x71, 0x6F, 0x69, 0x66]

/-- `EOS_MARKER` (R106). PRESUMED, log entry 12. -/
def eosMarker : List Byte := [0, 0, 0, 0, 0, 0, 0, 1]

/-- `BE32(v)` (R111). -/
def be32 (v : Nat) : List Byte :=
  [BitVec.ofNat 8 (v / 2 ^ 24), BitVec.ofNat 8 (v / 2 ^ 16), BitVec.ofNat 8 (v / 2 ^ 8), BitVec.ofNat 8 v]

/-- `UNBE32([b0,b1,b2,b3])` (20_memory.md R57). -/
def unbe32 (b0 b1 b2 b3 : Byte) : Nat :=
  b0.toNat * 2 ^ 24 + b1.toNat * 2 ^ 16 + b2.toNat * 2 ^ 8 + b3.toNat

/-- The encoding utility called with any integer: out of range it is a contract violation (R110). -/
def utilBe32 (v : Int) : Raises (List Byte) :=
  if 0 ≤ v ∧ v < 2 ^ 32 then .ok (be32 v.toNat) else .error (.contract .utility)

/-- The decoding utility called with any byte sequence (R110). -/
def utilUnbe32 : List Byte → Raises Nat
  | [b0, b1, b2, b3] => .ok (unbe32 b0 b1 b2 b3)
  | _ => .error (.contract .utility)

/-- The sub-range utility: `length` bytes from `start`, a contract violation past the end (R110). -/
def utilSlice (s : List Byte) (start length : Nat) : Raises (List Byte) :=
  if start + length ≤ s.length then .ok ((s.drop start).take length) else .error (.contract .utility)

/-- The concatenation utility (R110). -/
def utilConcat (ss : List (List Byte)) : List Byte := ss.flatten

/-- The equality utility (R110). -/
def utilEqual (s t : List Byte) : Bool := decide (s = t)

/-- The equality utility on sequences of byte sequences (R110). -/
def utilEqualRows (s t : List (List Byte)) : Bool := decide (s = t)

/-- The field values a header may carry (R100). -/
def Header.legal (h : Header) : Bool :=
  decide (h.width < 2 ^ 32) && decide (h.height < 2 ^ 32) &&
    (decide (h.channels = 3) || decide (h.channels = 4)) &&
    (decide (h.colorspace = 0) || decide (h.colorspace = 1))

/-- `channels` of a header, 3 or 4 (R100). -/
inductive Channels where
  /-- 3. -/
  | three
  /-- 4. -/
  | four
deriving DecidableEq, Repr

/-- The number a header carries. -/
def Channels.toNat : Channels → Nat
  | .three => 3
  | .four => 4

/-- The four operands of `BUILD_HEADER`, each in the range R101 gives it. -/
structure HeaderFields where
  /-- `width`, in [0, 2^32-1]. -/
  width : Fin (2 ^ 32)
  /-- `height`, in [0, 2^32-1]. -/
  height : Fin (2 ^ 32)
  /-- `channels`, 3 or 4. -/
  channels : Channels
  /-- `colorspace`, 0 or 1. -/
  colorspace : Fin 2
deriving DecidableEq, Repr

/-- The header with these fields. -/
def HeaderFields.header (f : HeaderFields) : Header :=
  ⟨f.width.val, f.height.val, f.channels.toNat, f.colorspace.val⟩

/-- The header four integers make, if each is a natural number. -/
def headerOf (w h c cs : Int) : Option Header :=
  if 0 ≤ w ∧ 0 ≤ h ∧ 0 ≤ c ∧ 0 ≤ cs then some ⟨w.toNat, h.toNat, c.toNat, cs.toNat⟩ else none

/-- The 14 bytes of a header (R101). -/
def headerBytes (h : Header) : List Byte :=
  magic ++ be32 h.width ++ be32 h.height ++ [BitVec.ofNat 8 h.channels, BitVec.ofNat 8 h.colorspace]

/-- `BUILD_HEADER(width, height, channels, colorspace)` (R101). -/
def buildHeader (w h c cs : Int) : Raises (List Byte) :=
  match headerOf w h c cs with
  | some hd => if Header.legal hd then .ok (headerBytes hd) else .error (.contract .headerField)
  | none => .error (.contract .headerField)

/-- The checks of `PARSE_HEADER` after length and magic, in their order, and the header read (R102). -/
def headerOfFields (w h : Nat) (c cs : Byte) : Raises Header :=
  if c ≠ 3 ∧ c ≠ 4 then .error (.format .badChannels)
  else if cs ≠ 0 ∧ cs ≠ 1 then .error (.format .badColorspace)
  else .ok ⟨w, h, c.toNat, cs.toNat⟩

/-- `PARSE_HEADER(bytes)`; bytes after the fourteenth are ignored (R102). -/
def parseHeader : List Byte → Raises Header
  | m0 :: m1 :: m2 :: m3 :: w0 :: w1 :: w2 :: w3 :: h0 :: h1 :: h2 :: h3 :: c :: cs :: _ =>
    if [m0, m1, m2, m3] ≠ magic then .error (.format .badMagic)
    else headerOfFields (unbe32 w0 w1 w2 w3) (unbe32 h0 h1 h2 h3) c cs
  | _ => .error (.format .headerShort)

end Sys2Proof.Machine
end

