-- ==== Sys2Proof/Machine/File.lean ====
section
/-! DEFINITION. File framing and the collaborator contracts on pixel order (40_header_and_framing.md). -/

namespace Sys2Proof.Machine

/-- `ENCODE_FILE(width, height, channels, colorspace, P)` (R106). Its header operands are legal by their type, as 60_exceptions.md
R221 allows: an illegal one is rejected where a caller builds it (`buildHeader`, R101), so that with a matching pixel count
nothing is raised; log entry 29. -/
def encodeFile (H : Hash) (f : HeaderFields) (ps : List Pixel) : Raises (List Byte) :=
  if ps.length ≠ f.width.val * f.height.val then .error (.contract .pixelCount)
  else
    match encPass H ps with
    | .error e => .error e
    | .ok body => .ok (headerBytes f.header ++ body ++ eosMarker)

/-- The chunk stream of a file: what lies between header and end-of-stream marker (R107). -/
def chunkStream (f : List Byte) : List Byte :=
  (f.drop Config.headerLen).take (f.length - Config.headerLen - eosMarker.length)

/-- The last bytes of a file, as many as the end-of-stream marker has (R107). -/
def fileTail (f : List Byte) : List Byte := f.drop (f.length - eosMarker.length)

/-- `DECODE_FILE(F)` (R107). -/
def decodeFile (H : Hash) (f : List Byte) : Raises (Header × List Pixel) :=
  match parseHeader f with
  | .error e => .error e
  | .ok hd =>
    if f.length < Config.headerLen + eosMarker.length then .error (.format .truncatedStream)
    else if fileTail f ≠ eosMarker then .error (.format .badEos)
    else
      match decPass H (chunkStream f) (hd.width * hd.height) with
      | .error e => .error e
      | .ok ps => .ok (hd, ps)

/-- The padding of a pixel without alpha before encode (R113). -/
def padOpaque (r g b : Byte) : Pixel := ⟨r, g, b, 255⟩

/-- The flat pixel list of an image given row by row, `k = row * width + column` (R113). -/
def flattenRows (rows : List (List Pixel)) : List Pixel := rows.flatten

/-- `data()` of an image container, by its `channels()`: rows of unpacked pixels from top to bottom (R112). How a pixel is
packed inside the container is out of scope (log entry 22). -/
inductive ImageData where
  /-- `channels() = 3`: red, green and blue, no alpha. -/
  | threeChannels (rows : List (List (Byte × Byte × Byte)))
  /-- `channels() = 4`. -/
  | fourChannels (rows : List (List Pixel))
deriving DecidableEq, Repr

/-- What an image container exposes (R112). -/
structure Image where
  /-- `data()`, with `channels()`. -/
  data : ImageData
  /-- `color_space()`, 0 or 1. -/
  colorSpace : Fin 2
deriving DecidableEq, Repr

/-- `channels()` (R112). -/
def imageChannels (image : Image) : Channels :=
  match image.data with
  | .threeChannels _ => .three
  | .fourChannels _ => .four

/-- `color_space()` (R112). -/
def imageColorSpace (image : Image) : Fin 2 := image.colorSpace

/-- The rows of an image with four channels a pixel: padded with alpha 255 when `channels() = 3`, else as they are (R113). -/
def paddedRows : ImageData → List (List Pixel)
  | .threeChannels rows => rows.map (List.map fun p => padOpaque p.1 p.2.1 p.2.2)
  | .fourChannels rows => rows

/-- `P`, the flat list of four-channel pixels the stream encoder is given (R113). -/
def imagePixels (image : Image) : List Pixel := flattenRows (paddedRows image.data)

/-- What a caller does with an image: header from the image's own tags, `P` through a fresh encoder, marker behind
(70_reset_and_hazards.md R244). DESIGN CHOICE: width and height come from the caller, since R112 exposes neither, and only
their product is held against the pixel count, so that rows of other lengths than the width are accepted; log entry 28. -/
def encodeImage (H : Hash) (width height : Fin (2 ^ 32)) (image : Image) : Raises (List Byte) :=
  encodeFile H ⟨width, height, imageChannels image, imageColorSpace image⟩ (imagePixels image)

/-- The pixel at a row and column of a decoded image (R114); an image has no column at or beyond its width. -/
def pixelAt (width : Nat) (ps : List Pixel) (row column : Nat) : Option Pixel :=
  if column < width then ps[row * width + column]? else none

/-- The inverse reshaping: a flat pixel list cut into `height` rows of `width` pixels, top to bottom (R114). -/
def rowsOfPixels (width : Nat) : Nat → List Pixel → List (List Pixel)
  | 0, _ => []
  | height + 1, ps => ps.take width :: rowsOfPixels width height (ps.drop width)

/-- What a caller does with a file: the header and the rows of four-channel pixels of the decoded image (R107, R114). What
becomes of their alpha when the header says three channels is the caller's (log entry 22). -/
def decodeImage (H : Hash) (f : List Byte) : Raises (Header × List (List Pixel)) :=
  match decodeFile H f with
  | .error e => .error e
  | .ok (hd, ps) => .ok (hd, rowsOfPixels hd.width hd.height ps)

end Sys2Proof.Machine
end

