-- ==== Sys2Proof/Safety.lean ====
section
/-! DEFINITION. The terms claims use: invariants of the two agents, what a chunk leaves unchanged, and what a cache store does. -/

namespace Sys2Proof

open Sys2Proof.Machine

/-- Every slot is the zero pixel or holds a pixel that hashes to it (44_stream_encoder.md R182). -/
def cacheInv (H : Hash) (c : Cache) : Prop :=
  ∀ i : Index, cacheLookup c i = Config.zeroPixel ∨ H (cacheLookup c i) = i

/-- Between steps of a running pass `RUN` is in [0,61] and the cache is sound; at its end no run is open; the only
error an encoder can be in is a step out of sequence (44_stream_encoder.md R181, R182, R185). -/
def encInv (H : Hash) (e : Enc) : Prop :=
  (e.status = .busy → e.run < 62 ∧ cacheInv H e.cache) ∧
  (e.status = .done → e.run = 0) ∧
  (∀ err, e.status = .fault err → err = .contract .sequence)

/-- The errors a decoder can be in: the four of the stream, and a step out of sequence (60_exceptions.md R211, R221). -/
def streamError : Err → Bool
  | .format .streamExhausted => true
  | .format .truncatedChunk => true
  | .format .pixelCount => true
  | .format .trailingBytes => true
  | .contract .sequence => true
  | _ => false

/-- `IN` is canonical and lies below `L`; in a running or finished pass `BP` is in [0,L], `CNT` in [0,N] and counts the
output, and the cache is sound; a finished pass has read everything and produced everything
(10_state.md R24, R25, R28, 44_stream_encoder.md R182). -/
def decInv (H : Hash) (d : Dec) : Prop :=
  d.mem.wf = true ∧
  (∀ a, d.len ≤ a → memoryRead d.mem a = unlistedByte) ∧
  (d.status = .busy ∨ d.status = .done →
    d.bp ≤ d.len ∧ d.cnt ≤ d.n ∧ d.outPixels.length = d.cnt ∧ cacheInv H d.cache) ∧
  (d.status = .done → d.cnt = d.n ∧ d.bp = d.len) ∧
  (∀ e, d.status = .fault e → streamError e = true)

/-- The invariant of the machine. It holds before the first START too, whatever the registers hold. -/
def Inv (s : State) : Prop := encInv codecHash s.enc ∧ decInv codecHash s.dec

/-- A state in which no agent is in an error: what a safe run stays in. -/
def noError (s : State) : Prop :=
  (∀ err, s.enc.status ≠ .fault err) ∧ (∀ err, s.dec.status ≠ .fault err)

/-- What a decoder chunk leaves unchanged whatever it does: the encoder, the host's side, the decoder's status, its
expected count, and every byte of `IN` (10_state.md R20, R27, 20_memory.md R63). -/
def chunkFrame (s t : State) : Prop :=
  t.enc = s.enc ∧ t.host = s.host ∧ t.inDecPass = s.inDecPass ∧ t.dec.status = s.dec.status ∧ t.dec.n = s.dec.n ∧ t.dec.len = s.dec.len ∧
  ∀ a, memoryRead t.dec.mem a = memoryRead s.dec.mem a

/-- `t` is `s` with the decoder in `FAULT(e)` and nothing else changed (60_exceptions.md R216). Nothing is said of `OUT_PIXELS`,
which a claim may not read in `FAULT` (45_stream_decoder.md R204; log entry 31). -/
def decoderFaults (s t : State) (e : Err) : Prop :=
  t = { s with dec := { s.dec with status := .fault e, outPixels := t.dec.outPixels } }

/-- `c'` is `c` with slot `i` holding `p` and every other slot unchanged (41_pixel_cache.md R123). -/
def storedIn (c c' : Cache) (i : Index) (p : Pixel) : Prop :=
  cacheLookup c' i = p ∧ ∀ j, j ≠ i → cacheLookup c' j = cacheLookup c j

/-- The bytes of `IN` from `BP` to its end. -/
def remainingBytes (d : Dec) : List Byte := memoryBytes d.mem d.bp (d.len - d.bp)

/-- The contract of a chunk parser: the kind's length and a lead byte of the kind (43_chunk_decode.md R150). -/
def meetsContract (k : Kind) (bs : List Byte) : Prop :=
  bs.length = kindLength k ∧ ∃ b0 payload, bs = b0 :: payload ∧ kind b0 = k

/-- `e` is an error a parser may raise on bytes outside its contract: the length's if the lead byte is right or absent, the
tag's if the length is right, one of the two where both are wrong (43_chunk_decode.md R150, log entry 16). -/
def contractError (k : Kind) (bs : List Byte) (e : Err) : Prop :=
  (e = .contract .chunkLength ∧ bs.length ≠ kindLength k) ∨
  (e = .contract .tagMismatch ∧ ∃ b0 payload, bs = b0 :: payload ∧ kind b0 ≠ k)

/-- Pixels a chunk produces (spec/opcode_table.json, `pixels_produced`). -/
def pixelsOf : Instr → Nat
  | .rgb _ _ _ => 1
  | .rgba _ _ _ _ => 1
  | .index _ => 1
  | .diff _ _ _ => 1
  | .luma _ _ _ => 1
  | .run count => count

/-- A host operation that starts the decoder. -/
def startsDecoder : HostOp → Bool
  | .decStart _ _ => true
  | .decPass _ _ => true
  | .decStep => false
  | .decCollect => false
  | .encStart => false
  | .encStep _ _ => false
  | .encPass _ => false
  | .encCollect => false

/-- A host operation that starts the encoder. -/
def startsEncoder : HostOp → Bool
  | .encStart => true
  | .encPass _ => true
  | .encStep _ _ => false
  | .encCollect => false
  | .decStart _ _ => false
  | .decStep => false
  | .decPass _ _ => false
  | .decCollect => false

/-- The RUN chunk that a differing pixel flushes first: none if no run is open (44_stream_encoder.md R174). -/
def pendingRun (e : Enc) : List Byte := if 0 < e.run then [byteOf (0xC0 + ((e.run : Int) - 1))] else []

end Sys2Proof
end

