-- ==== Sys2Proof/Certificates/Slice0/Obligations.lean ====
section
/-! DEFINITION. The statements for the provers, from the spec's numbered rules. Where one rests on a choice of the model
or of the spec, its docstring says so and names the log entry or the spec's words. -/

open Sys2Proof Sys2Proof.Machine

/-! Stream start and reset. -/

/-- R31, R241: what stream start leaves, in both agents. -/
def Obligations.ResetLeavesStreamStartValues : Prop :=
  State.reset.enc.status = .busy ∧ State.reset.enc.prev = ⟨0, 0, 0, 255⟩ ∧
  (∀ i, cacheLookup State.reset.enc.cache i = ⟨0, 0, 0, 0⟩) ∧
  State.reset.enc.run = 0 ∧ State.reset.enc.outBytes = [] ∧
  State.reset.dec.status = .busy ∧ State.reset.dec.prev = ⟨0, 0, 0, 255⟩ ∧
  (∀ i, cacheLookup State.reset.dec.cache i = ⟨0, 0, 0, 0⟩) ∧
  State.reset.dec.bp = 0 ∧ State.reset.dec.cnt = 0 ∧ State.reset.dec.outPixels = []

/-- R170: `ENC_START` from any state, whatever the encoder was doing; the decoder is untouched (R240). An operation is
performed while no `ENC_PASS` or `DEC_PASS` is running, which nothing can redirect (R214, log entry 19); that a decoder
`DEC_START` began stays still while one is queued is log entry 26. -/
def Obligations.EncoderStartSetsResetValues : Prop :=
  ∀ (s : State) (rest : List HostOp), s.host = .encStart :: rest → s.passRunning = false →
    ∃ t, step s = .next t ∧ t.enc.status = .busy ∧ t.enc.prev = ⟨0, 0, 0, 255⟩ ∧
      (∀ i, cacheLookup t.enc.cache i = ⟨0, 0, 0, 0⟩) ∧ t.enc.run = 0 ∧ t.enc.outBytes = [] ∧
      t.dec = s.dec ∧ t.host = rest ∧ t.inDecPass = s.inDecPass

/-- R190: `DEC_START(IN, N)` from any state loads the stream and sets the reset values; the encoder is untouched (R240). An
operation is performed while no `ENC_PASS` or `DEC_PASS` is running (R214, log entry 19); that a decoder an earlier `DEC_START`
began stays still while one is queued is log entry 26. -/
def Obligations.DecoderStartLoadsStream : Prop :=
  ∀ (s : State) (inp : List Byte) (n : Nat) (rest : List HostOp), s.host = .decStart inp n :: rest →
    s.passRunning = false →
    ∃ t, step s = .next t ∧ t.dec.status = .busy ∧ t.dec.prev = ⟨0, 0, 0, 255⟩ ∧
      (∀ i, cacheLookup t.dec.cache i = ⟨0, 0, 0, 0⟩) ∧ t.dec.bp = 0 ∧ t.dec.cnt = 0 ∧
      t.dec.outPixels = [] ∧ t.dec.n = n ∧ t.dec.len = inp.length ∧
      t.dec.memRead 0 inp.length = some inp ∧ t.enc = s.enc ∧ t.host = rest ∧
      t.inDecPass = false

/-! Executing a chunk: the result and what is left unchanged. -/

/-- R151, R197. -/
def Obligations.RgbCodesRawChannelsAndKeepsAlpha : Prop :=
  ∀ (r g b : Byte) (s : State), s.dec.status = .busy → s.dec.cnt < s.dec.n →
    ∃ t, exec (.rgb r g b) s = .next t ∧ t.dec.prev = ⟨r, g, b, s.dec.prev.a⟩ ∧
      t.dec.outPixels = s.dec.outPixels ++ [⟨r, g, b, s.dec.prev.a⟩] ∧ t.dec.cnt = s.dec.cnt + 1 ∧
      t.dec.bp = s.dec.bp + 4 ∧
      storedIn s.dec.cache t.dec.cache (codecHash ⟨r, g, b, s.dec.prev.a⟩) ⟨r, g, b, s.dec.prev.a⟩ ∧
      chunkFrame s t

/-- R152, R197. -/
def Obligations.RgbaCodesAllRawChannels : Prop :=
  ∀ (r g b a : Byte) (s : State), s.dec.status = .busy → s.dec.cnt < s.dec.n →
    ∃ t, exec (.rgba r g b a) s = .next t ∧ t.dec.prev = ⟨r, g, b, a⟩ ∧
      t.dec.outPixels = s.dec.outPixels ++ [⟨r, g, b, a⟩] ∧ t.dec.cnt = s.dec.cnt + 1 ∧
      t.dec.bp = s.dec.bp + 5 ∧ storedIn s.dec.cache t.dec.cache (codecHash ⟨r, g, b, a⟩) ⟨r, g, b, a⟩ ∧
      chunkFrame s t

/-- R153, R196; that the previous pixel advances is the spec's own choice (92_eei_decisions.md D8). -/
def Obligations.IndexReadsSlotWithoutStoring : Prop :=
  ∀ (idx : Index) (s : State), s.dec.status = .busy → s.dec.cnt < s.dec.n →
    ∃ t, exec (.index idx) s = .next t ∧ t.dec.prev = cacheLookup s.dec.cache idx ∧
      t.dec.outPixels = s.dec.outPixels ++ [cacheLookup s.dec.cache idx] ∧ t.dec.cnt = s.dec.cnt + 1 ∧
      t.dec.bp = s.dec.bp + 1 ∧ (∀ i, cacheLookup t.dec.cache i = cacheLookup s.dec.cache i) ∧
      chunkFrame s t

/-- R154, R197: each channel is the previous one plus its delta, modulo 256. -/
def Obligations.DiffAddsDeltasModulo256 : Prop :=
  ∀ (dr dg db : Int) (s : State), (-2 ≤ dr ∧ dr ≤ 1) → (-2 ≤ dg ∧ dg ≤ 1) → (-2 ≤ db ∧ db ≤ 1) →
    s.dec.status = .busy → s.dec.cnt < s.dec.n →
    ∃ t p, exec (.diff dr dg db) s = .next t ∧
      (p.r.toNat : Int) = (s.dec.prev.r.toNat + dr) % 256 ∧
      (p.g.toNat : Int) = (s.dec.prev.g.toNat + dg) % 256 ∧
      (p.b.toNat : Int) = (s.dec.prev.b.toNat + db) % 256 ∧ p.a = s.dec.prev.a ∧
      t.dec.prev = p ∧ t.dec.outPixels = s.dec.outPixels ++ [p] ∧ t.dec.cnt = s.dec.cnt + 1 ∧
      t.dec.bp = s.dec.bp + 1 ∧ storedIn s.dec.cache t.dec.cache (codecHash p) p ∧ chunkFrame s t

/-- R155, R197: red and blue move by the green delta plus their own difference, modulo 256. -/
def Obligations.LumaAddsGreenAndDifferencesModulo256 : Prop :=
  ∀ (dg drg dbg : Int) (s : State), (-32 ≤ dg ∧ dg ≤ 31) → (-8 ≤ drg ∧ drg ≤ 7) → (-8 ≤ dbg ∧ dbg ≤ 7) →
    s.dec.status = .busy → s.dec.cnt < s.dec.n →
    ∃ t p, exec (.luma dg drg dbg) s = .next t ∧
      (p.r.toNat : Int) = (s.dec.prev.r.toNat + (dg + drg)) % 256 ∧
      (p.g.toNat : Int) = (s.dec.prev.g.toNat + dg) % 256 ∧
      (p.b.toNat : Int) = (s.dec.prev.b.toNat + (dg + dbg)) % 256 ∧ p.a = s.dec.prev.a ∧
      t.dec.prev = p ∧ t.dec.outPixels = s.dec.outPixels ++ [p] ∧ t.dec.cnt = s.dec.cnt + 1 ∧
      t.dec.bp = s.dec.bp + 2 ∧ storedIn s.dec.cache t.dec.cache (codecHash p) p ∧ chunkFrame s t

/-- R195: `count` copies of `PREV`; `PREV` and every cache slot keep their values. -/
def Obligations.RunRepeatsPreviousPixel : Prop :=
  ∀ (count : Nat) (s : State), 1 ≤ count → count ≤ 62 → s.dec.status = .busy → s.dec.cnt < s.dec.n →
    s.dec.cnt + count ≤ s.dec.n →
    ∃ t, exec (.run count) s = .next t ∧ t.dec.prev = s.dec.prev ∧
      t.dec.outPixels = s.dec.outPixels ++ List.replicate count s.dec.prev ∧
      t.dec.cnt = s.dec.cnt + count ∧ t.dec.bp = s.dec.bp + 1 ∧
      (∀ i, cacheLookup t.dec.cache i = cacheLookup s.dec.cache i) ∧ chunkFrame s t

/-- R197, over the chunk's bytes: whatever pixel the kind's own parser gives from them and the old `PREV` is stored in its
own hash slot, produced once, and becomes `PREV`; the parser never raises on the bytes of such a chunk. -/
def Obligations.StoringChunksStoreTheirParsersPixel : Prop :=
  ∀ (s : State) (b0 : Byte) (payload : List Byte) (i : Instr) (r : Raises Pixel),
    parseChunk (b0 :: payload) = .ok i →
    storedPixelParser (kind b0) s.dec.prev (b0 :: payload) = some r →
    s.dec.status = .busy → s.dec.cnt < s.dec.n →
    ∃ p t, r = .ok p ∧ exec i s = .next t ∧ storedIn s.dec.cache t.dec.cache (codecHash p) p ∧
      t.dec.outPixels = s.dec.outPixels ++ [p] ∧ t.dec.cnt = s.dec.cnt + 1 ∧ t.dec.prev = p ∧
      t.dec.bp = s.dec.bp + (payload.length + 1) ∧ chunkFrame s t

/-! Errors of a chunk, and error entry. -/

/-- R201: no pixel of the run is produced, nothing but `STATUS` changes; `OUT_PIXELS` is not read in `FAULT` (R204, log entry
31). That the case is an error and not a clamped run
is the spec's own choice (92_eei_decisions.md D9). -/
def Obligations.RunPastExpectedCountRaises : Prop :=
  ∀ (count : Nat) (s : State), 1 ≤ count → count ≤ 62 → s.dec.status = .busy → s.dec.cnt < s.dec.n →
    s.dec.n < s.dec.cnt + count →
    ∃ t, exec (.run count) s = .next t ∧ decoderFaults s t (.format .pixelCount)

/-- R212 `CV_SEQUENCE`, log entry 6: a chunk issued to a decoder whose pass is not running, or that expects no more pixels
(of a running one that is the model's choice, log entry 30). It holds of ill-formed instructions too: that `CV_SEQUENCE` outranks
the range violation of an operand with no encoding is the model's choice, log entry 17. `OUT_PIXELS` is not read in `FAULT` (R204,
log entry 31). -/
def Obligations.ChunkOutOfSequenceRaises : Prop :=
  ∀ (i : Instr) (s : State), (s.dec.status ≠ .busy ∨ s.dec.n ≤ s.dec.cnt) →
    ∃ t, exec i s = .next t ∧ decoderFaults s t (.contract .sequence)

/-- Log entry 17, the model's choice: a DIFF, LUMA or RUN with an operand that has no encoding raises the range violation of
its own kind (R212) and changes nothing else; no other instruction is ill-formed. `OUT_PIXELS` is not read in `FAULT` (R204, log
entry 31). -/
def Obligations.OperandOutOfRangeRaises : Prop :=
  ∀ s : State, s.dec.status = .busy → s.dec.cnt < s.dec.n →
    (∀ dr dg db : Int, ¬ ((-2 ≤ dr ∧ dr ≤ 1) ∧ (-2 ≤ dg ∧ dg ≤ 1) ∧ (-2 ≤ db ∧ db ≤ 1)) →
      ∃ t, exec (.diff dr dg db) s = .next t ∧ decoderFaults s t (.contract .diffRange)) ∧
    (∀ dg drg dbg : Int, ¬ ((-32 ≤ dg ∧ dg ≤ 31) ∧ (-8 ≤ drg ∧ drg ≤ 7) ∧ (-8 ≤ dbg ∧ dbg ≤ 7)) →
      ∃ t, exec (.luma dg drg dbg) s = .next t ∧ decoderFaults s t (.contract .lumaRange)) ∧
    (∀ count : Nat, ¬ (1 ≤ count ∧ count ≤ 62) →
      ∃ t, exec (.run count) s = .next t ∧ decoderFaults s t (.contract .runRange)) ∧
    (∀ i : Instr, i.wellFormed = false →
      ∃ c t, i.violation = some c ∧ exec i s = .next t ∧ decoderFaults s t (.contract c) ∧
        (i.kind = .diff ∧ c = .diffRange ∨ i.kind = .luma ∧ c = .lumaRange ∨ i.kind = .run ∧ c = .runRange))

/-- R199. That a pass `DEC_START` began takes the step with no `DEC_STEP` issued, once nothing is queued, is the model's
choice, log entry 26; a `DEC_STEP` the host issues is HostDecStepRunsOneChunk. `OUT_PIXELS` is not read in `FAULT` (R204, log
entry 31). -/
def Obligations.ExhaustedStreamRaises : Prop :=
  ∀ s : State, (s.inDecPass = true ∨ s.host = []) → s.dec.status = .busy → s.dec.cnt < s.dec.n → s.dec.len ≤ s.dec.bp →
    ∃ t, step s = .next t ∧ decoderFaults s t (.format .streamExhausted)

/-- R200: only LUMA, RGB and RGBA can be truncated, and the truncated chunk consumes nothing. That a pass `DEC_START` began
takes the step with no `DEC_STEP` issued, once nothing is queued, is the model's choice, log entry 26. `OUT_PIXELS` is not read in
`FAULT` (R204, log entry 31). -/
def Obligations.TruncatedChunkRaises : Prop :=
  ∀ s : State, (s.inDecPass = true ∨ s.host = []) → s.dec.status = .busy → s.dec.cnt < s.dec.n → s.dec.bp < s.dec.len →
    s.dec.len < s.dec.bp + chunkLen (memoryRead s.dec.mem s.dec.bp) →
    (∃ t, step s = .next t ∧ decoderFaults s t (.format .truncatedChunk)) ∧
    (kind (memoryRead s.dec.mem s.dec.bp) = .luma ∨ kind (memoryRead s.dec.mem s.dec.bp) = .rgb ∨
      kind (memoryRead s.dec.mem s.dec.bp) = .rgba)

/-- R192, R216: a step that raises changes nothing but `STATUS`. (Bytes left over are found after the last chunk has
completed, R202, and are another statement.) `OUT_PIXELS` is not read in `FAULT` (R204, log entry 31).
That a pass `DEC_START` began moves by itself, once nothing is queued, is log entry 26. -/
def Obligations.RaisingStepChangesOnlyStatus : Prop :=
  ∀ (s t : State) (e : Err), (s.inDecPass = true ∨ s.host = []) → s.dec.status = .busy → s.dec.cnt < s.dec.n →
    step s = .next t → t.dec.status = .fault e → e ≠ .format .trailingBytes →
    decoderFaults s t e

/-- R217, R28: a faulted agent stays faulted through any step that is not its own START. That a START queued while a pass of
the other agent runs is not performed by the step is the model's reading, log entry 19. -/
def Obligations.FaultIsLeftOnlyByStart : Prop :=
  ∀ (s t : State), step s = .next t →
    ((∃ e, s.dec.status = .fault e) →
      (s.passRunning = true ∨ ∀ op rest, s.host = op :: rest → startsDecoder op = false) →
      ∃ e, t.dec.status = .fault e) ∧
    ((∃ e, s.enc.status = .fault e) →
      (s.passRunning = true ∨ ∀ op rest, s.host = op :: rest → startsEncoder op = false) →
      ∃ e, t.enc.status = .fault e)

/-! The step of a decode pass. -/

/-- R192: in a `DEC_PASS`, or with nothing queued by the host, a step of a running pass is `exec` of the instruction that
the bytes from `BP` on decode to, followed by the end-of-pass test (`thenEndPass`, log entry 5). That a pass `DEC_START`
began moves by itself too is log entry 26. -/
def Obligations.StepRunsDecodedInstruction : Prop :=
  ∀ (s : State) (i : Instr) (rest : List Byte),
    (s.inDecPass = true ∨ s.host = []) → s.dec.status = .busy → s.dec.cnt < s.dec.n →
    decode (remainingBytes s.dec) = .ok (i, rest) → step s = thenEndPass (exec i s)

/-- R191, R198, R202: what follows a completed chunk. The pass goes on while pixels are expected, ends when the count is
reached at the end of the stream, and raises when bytes are left over (the spec's own choice, D10). That this happens in
the chunk's own step is log entry 5; `OUT_PIXELS` is not read in `FAULT` (R204, log entry 31).
That a pass `DEC_START` began moves by itself, once nothing is queued, is log entry 26. -/
def Obligations.PassEndsAtExpectedCount : Prop :=
  ∀ (s t : State) (i : Instr) (rest : List Byte),
    (s.inDecPass = true ∨ s.host = []) → s.dec.status = .busy → s.dec.cnt < s.dec.n →
    decode (remainingBytes s.dec) = .ok (i, rest) → exec i s = .next t → t.dec.status = .busy →
    ∃ u, step s = .next u ∧
      if t.dec.cnt < t.dec.n then u = t
      else if t.dec.bp = t.dec.len then u = { t with dec := { t.dec with status := .done } }
      else decoderFaults t u (.format .trailingBytes)

/-- R193, R191: a step of a running pass that does not raise moves `BP` by the length its lead byte asks for, within the
stream, and `CNT` by the pixels the chunk produces, at least one, within the expected count.
That a pass `DEC_START` began moves by itself, once nothing is queued, is log entry 26. -/
def Obligations.StepAdvancesByOneChunk : Prop :=
  ∀ (s t : State), (s.inDecPass = true ∨ s.host = []) → s.dec.status = .busy → s.dec.cnt < s.dec.n → step s = .next t →
    (t.dec.status = .busy ∨ t.dec.status = .done) →
    ∃ i rest, decode (remainingBytes s.dec) = .ok (i, rest) ∧
      t.dec.bp = s.dec.bp + chunkLen (memoryRead s.dec.mem s.dec.bp) ∧ t.dec.bp ≤ s.dec.len ∧
      t.dec.cnt = s.dec.cnt + pixelsOf i ∧ s.dec.cnt < t.dec.cnt ∧ t.dec.cnt ≤ s.dec.n ∧
      t.dec.outPixels.length = s.dec.outPixels.length + pixelsOf i

/-- R27, R63: no step but a decoder START changes the input buffer, its length or the expected count. While a `DEC_PASS` runs
no step does, whatever is queued (R214); that a START queued while an `ENC_PASS` runs waits as well is the model's reading,
log entry 19. -/
def Obligations.InputBufferIsImmutable : Prop :=
  ∀ (s t : State), step s = .next t →
    (s.passRunning = true ∨ ∀ op rest, s.host = op :: rest → startsDecoder op = false) →
    t.dec.mem = s.dec.mem ∧ t.dec.len = s.dec.len ∧ t.dec.n = s.dec.n

/-- R52, R54: the two output streams only grow at their end, but for the START of their own agent, and `OUT_PIXELS` of a pass in
`FAULT` is not read (R204, log entry 31). No step performs a START
while that agent's own pass runs (R214); that none is performed while the other agent's pass runs is the model's reading,
log entry 19. -/
def Obligations.OutputsOnlyGrow : Prop :=
  ∀ (s t : State), step s = .next t →
    ((s.passRunning = true ∨ ∀ op rest, s.host = op :: rest → startsDecoder op = false) →
      (∀ e, t.dec.status ≠ .fault e) → ∃ ps, t.dec.outPixels = s.dec.outPixels ++ ps) ∧
    ((s.passRunning = true ∨ ∀ op rest, s.host = op :: rest → startsEncoder op = false) →
      ∃ bs, t.enc.outBytes = s.enc.outBytes ++ bs)

/-! Encoding. -/

/-- R80, R81, R83: the map of the 256 lead bytes. The two full-byte tags are the values the spec took (log entry 9). -/
def Obligations.LeadByteMap : Prop :=
  ∀ b : Byte,
    (b.toNat ≤ 0x3F → kind b = .index ∧ chunkLen b = 1) ∧
    (0x40 ≤ b.toNat ∧ b.toNat ≤ 0x7F → kind b = .diff ∧ chunkLen b = 1) ∧
    (0x80 ≤ b.toNat ∧ b.toNat ≤ 0xBF → kind b = .luma ∧ chunkLen b = 2) ∧
    (0xC0 ≤ b.toNat ∧ b.toNat ≤ 0xFD → kind b = .run ∧ chunkLen b = 1) ∧
    (b.toNat = 0xFE → kind b = .rgb ∧ chunkLen b = 4) ∧
    (b.toNat = 0xFF → kind b = .rgba ∧ chunkLen b = 5)

/-- Words written out from the formats of 30_encoding.md R72 to R78, with the tag values and field places the spec took
(log entries 9, 10, 11). -/
def Obligations.WrittenWordsDecode : Prop :=
  decode [0xFE, 0xC8, 0x64, 0x32] = .ok (.rgb 200 100 50, []) ∧
  decode [0xFF, 0x01, 0x02, 0x03, 0x04] = .ok (.rgba 1 2 3 4, []) ∧
  decode [0x0B, 0xC0] = .ok (.index 11, [0xC0]) ∧
  decode [0x74] = .ok (.diff 1 (-1) (-2), []) ∧
  decode [0x9F, 0xBA] = .ok (.luma (-1) 3 2, []) ∧
  decode [0xFD] = .ok (.run 62, [])

/-- R82: bytes fail to begin with a chunk for one reason only, length. -/
def Obligations.DecodeFailsOnLengthOnly : Prop :=
  ∀ bs : List Byte,
    (∃ i rest, decode bs = .ok (i, rest)) ∨
    (bs = [] ∧ decode bs = .error (.format .streamExhausted)) ∨
    (∃ b0 rest, bs = b0 :: rest ∧ bs.length < chunkLen b0 ∧ decode bs = .error (.format .truncatedChunk))

/-- R33, R157: every well-formed instruction, at every value its operands may have, decodes back from its encoding,
whatever bytes follow. -/
def Obligations.DecodeOfEncodeIsIdentity : Prop :=
  ∀ (i : Instr) (rest : List Byte), i.wellFormed = true →
    ∃ bs, encode i = .ok bs ∧ bs.length = i.length ∧ decode (bs ++ rest) = .ok (i, rest)

/-- R33, R157: what decodes is well-formed, and its encoding is the bytes it was read from. -/
def Obligations.EncodeOfDecodeIsIdentity : Prop :=
  ∀ (bs rest : List Byte) (i : Instr), decode bs = .ok (i, rest) →
    i.wellFormed = true ∧ ∃ pre, encode i = .ok pre ∧ bs = pre ++ rest

/-- R136, R137, R138, R139: each serialiser's byte by its formula on operands in range, and its contract violation
outside. Tag values and field places are the spec's (log entries 9, 10, 11). -/
def Obligations.SerialisersFollowTheirFormulas : Prop :=
  (∀ idx : Int, if 0 ≤ idx ∧ idx ≤ 63 then encIndex idx = .ok [byteOf idx]
    else encIndex idx = .error (.contract .indexRange)) ∧
  (∀ d : Delta, if (-2 ≤ d.dr ∧ d.dr ≤ 1) ∧ (-2 ≤ d.dg ∧ d.dg ≤ 1) ∧ (-2 ≤ d.db ∧ d.db ≤ 1)
    then ∃ b : Byte, encDiff d = .ok [b] ∧
      (b.toNat : Int) = 0x40 + (d.dr + 2) * 16 + (d.dg + 2) * 4 + (d.db + 2)
    else encDiff d = .error (.contract .diffRange)) ∧
  (∀ d : Delta, if (-32 ≤ d.dg ∧ d.dg ≤ 31) ∧ (-8 ≤ d.dr - d.dg ∧ d.dr - d.dg ≤ 7) ∧
      (-8 ≤ d.db - d.dg ∧ d.db - d.dg ≤ 7)
    then ∃ b0 b1 : Byte, encLuma d = .ok [b0, b1] ∧ (b0.toNat : Int) = 0x80 + (d.dg + 32) ∧
      (b1.toNat : Int) = (d.dr - d.dg + 8) * 16 + (d.db - d.dg + 8)
    else encLuma d = .error (.contract .lumaRange)) ∧
  (∀ count : Int, if 1 ≤ count ∧ count ≤ 62
    then ∃ b : Byte, encRun count = .ok [b] ∧ (b.toNat : Int) = 0xC0 + (count - 1)
    else encRun count = .error (.contract .runRange))

/-- R140, the inverse law: each serialiser's bytes parse back to the pixel its operands were computed from. -/
def Obligations.ParsersInvertSerialisers : Prop :=
  ∀ cur prev : Pixel,
    (cur.a = prev.a → diffOk (delta cur prev) = true →
      ∃ bs, encDiff (delta cur prev) = .ok bs ∧ decDiff prev bs = .ok cur) ∧
    (cur.a = prev.a → lumaOk (delta cur prev) = true →
      ∃ bs, encLuma (delta cur prev) = .ok bs ∧ decLuma prev bs = .ok cur) ∧
    (cur.a = prev.a → ∃ bs, encRgb cur = .ok bs ∧ decRgb prev bs = .ok cur) ∧
    (∃ bs, encRgba cur = .ok bs ∧ decRgba bs = .ok cur) ∧
    (∀ (c : Cache) (idx : Index), ∃ bs, encIndex idx.val = .ok bs ∧ decIndex c bs = .ok (cacheLookup c idx)) ∧
    (∀ count : Nat, 1 ≤ count → count ≤ 62 → ∃ bs, encRun count = .ok bs ∧ decRun bs = .ok count)

/-- R131: a delta is the one signed byte that leads from the previous channel to the current one modulo 256
(signedness is the spec's own choice, D17). -/
def Obligations.DeltaIsTheSignedByteDifference : Prop :=
  ∀ (cur prev : Pixel) (v : Int), -128 ≤ v → v ≤ 127 →
    ((delta cur prev).dr = v ↔ (cur.r.toNat : Int) = (prev.r.toNat + v) % 256) ∧
    ((delta cur prev).dg = v ↔ (cur.g.toNat : Int) = (prev.g.toNat + v) % 256) ∧
    ((delta cur prev).db = v ↔ (cur.b.toNat : Int) = (prev.b.toNat + v) % 256)

/-- R133: forming the LUMA differences modulo 256 and reading them as signed bytes gives the same test. -/
def Obligations.LumaTestAgreesModulo256 : Prop :=
  ∀ cur prev : Pixel,
    lumaOk (delta cur prev) =
      (inRange (-32) 31 (delta cur prev).dg &&
        inRange (-8) 7 (s8 (u8 ((delta cur prev).dr - (delta cur prev).dg))) &&
        inRange (-8) 7 (s8 (u8 ((delta cur prev).db - (delta cur prev).dg))))

/-! The pixel cache. -/

/-- R123, with R122 and R127: a store overwrites its slot alone, storing what is there changes nothing, and an index
outside [0,63] is a contract violation. -/
def Obligations.CacheStoreOverwritesOneSlot : Prop :=
  ∀ (c : Cache) (i : Int) (p : Pixel),
    if 0 ≤ i ∧ i ≤ 63 then
      ∃ c', cacheStoreAt c i p = .ok c' ∧ cacheLookupAt c' i = .ok p ∧
        (∀ j : Int, j ≠ i → cacheLookupAt c' j = cacheLookupAt c j) ∧
        (cacheLookupAt c i = .ok p → c' = c)
    else cacheStoreAt c i p = .error (.contract .cacheIndex) ∧
      cacheLookupAt c i = .error (.contract .cacheIndex)

/-- R121: the hash formula the spec took from general knowledge (log entry 8), with no wrap before the reduction. -/
def Obligations.HashIsTheWeightedSumModulo64 : Prop :=
  ∀ r g b a : Nat, r < 256 → g < 256 → b < 256 → a < 256 →
    (codecHash ⟨BitVec.ofNat 8 r, BitVec.ofNat 8 g, BitVec.ofNat 8 b, BitVec.ofNat 8 a⟩).val =
      (3 * r + 5 * g + 7 * b + 11 * a) % 64

/-! The stream encoder. -/

/-- R173: a pixel equal to `PREV` extends the run, opening it if need be (the spec's own choice, D7), and flushes it at
62 or at the last pixel; `PREV` and the cache are unchanged.
That an operation waits while a pass of either agent runs is log entry 19, and that a decoder `DEC_START` began stays still
while one is queued log entry 26. -/
def Obligations.EqualPixelExtendsRun : Prop :=
  ∀ (s : State) (last : Bool) (rest : List HostOp), s.host = .encStep s.enc.prev last :: rest →
    s.passRunning = false → s.enc.status = .busy → s.enc.run < 62 →
    ∃ t, step s = .next t ∧ t.enc.prev = s.enc.prev ∧
      (∀ i, cacheLookup t.enc.cache i = cacheLookup s.enc.cache i) ∧
      (if s.enc.run + 1 = 62 ∨ last = true
        then t.enc.run = 0 ∧ t.enc.outBytes = s.enc.outBytes ++ [byteOf (0xC0 + (s.enc.run : Int))]
        else t.enc.run = s.enc.run + 1 ∧ t.enc.outBytes = s.enc.outBytes) ∧
      t.dec = s.dec ∧ t.host = rest ∧ t.inDecPass = s.inDecPass

/-- R174, R175: a differing pixel flushes an open run and then, on a cache hit, is coded INDEX before any other test;
the cache is unchanged and `PREV` advances (the spec's own choice, D8).
That an operation waits while a pass of either agent runs is log entry 19, and that a decoder `DEC_START` began stays still
while one is queued log entry 26. -/
def Obligations.CachedPixelIsCodedAsIndex : Prop :=
  ∀ (s : State) (p : Pixel) (last : Bool) (rest : List HostOp), s.host = .encStep p last :: rest →
    s.passRunning = false → s.enc.status = .busy → s.enc.run < 62 → p ≠ s.enc.prev →
    cacheLookup s.enc.cache (codecHash p) = p →
    ∃ t, step s = .next t ∧
      t.enc.outBytes = s.enc.outBytes ++ pendingRun s.enc ++ [byteOf (codecHash p).val] ∧
      t.enc.run = 0 ∧ t.enc.prev = p ∧ (∀ i, cacheLookup t.enc.cache i = cacheLookup s.enc.cache i) ∧
      t.dec = s.dec ∧ t.host = rest ∧ t.inDecPass = s.inDecPass

/-- R174, R176, R177, R178: a differing pixel that misses the cache flushes an open run, is stored in its hash slot and
is coded by the first of DIFF, LUMA, RGB that applies when its alpha is unchanged, else by RGBA. The lead bytes FE of RGB
and FF of RGBA are the values the spec took (log entry 9, 92_eei_decisions.md D4), as are the field places of DIFF and LUMA
that `chunkBytes` follows (log entries 10, 11).
That an operation waits while a pass of either agent runs is log entry 19, and that a decoder `DEC_START` began stays still
while one is queued log entry 26. -/
def Obligations.MissedPixelIsStoredAndCoded : Prop :=
  ∀ (s : State) (p : Pixel) (last : Bool) (rest : List HostOp), s.host = .encStep p last :: rest →
    s.passRunning = false → s.enc.status = .busy → s.enc.run < 62 → p ≠ s.enc.prev →
    cacheLookup s.enc.cache (codecHash p) ≠ p →
    ∃ t, step s = .next t ∧
      t.enc.outBytes = s.enc.outBytes ++ pendingRun s.enc ++
        (if p.a = s.enc.prev.a then
          if diffOk (delta p s.enc.prev) then
            chunkBytes (.diff (delta p s.enc.prev).dr (delta p s.enc.prev).dg (delta p s.enc.prev).db)
          else if lumaOk (delta p s.enc.prev) then
            chunkBytes (.luma (delta p s.enc.prev).dg ((delta p s.enc.prev).dr - (delta p s.enc.prev).dg)
              ((delta p s.enc.prev).db - (delta p s.enc.prev).dg))
          else [0xFE, p.r, p.g, p.b]
        else [0xFF, p.r, p.g, p.b, p.a]) ∧
      t.enc.run = 0 ∧ t.enc.prev = p ∧ storedIn s.enc.cache t.enc.cache (codecHash p) p ∧
      t.dec = s.dec ∧ t.host = rest ∧ t.inDecPass = s.inDecPass

/-- R179: after every step of the encoder, `PREV` is the pixel of the step, whichever path was taken. -/
def Obligations.PreviousPixelIsAlwaysTheLastCoded : Prop :=
  ∀ (H : Hash) (p : Pixel) (last : Bool) (e : Enc), e.status = .busy → e.run < 62 →
    ∃ e', e.step H p last = .ok e' ∧ e'.prev = p

/-- R181, R182: after the pixel marked `last` no run is open and the pass is done; otherwise `RUN` stays in [0,61]. -/
def Obligations.LastPixelClosesRun : Prop :=
  ∀ (H : Hash) (p : Pixel) (last : Bool) (e e' : Enc), e.run < 62 → e.step H p last = .ok e' →
    e'.run < 62 ∧ (last = true → e'.run = 0 ∧ e'.status = .done) ∧ (last = false → e'.status = .busy)

/-- R185, R212 `CV_SEQUENCE`: a pixel handed to an encoder whose pass is not running raises and changes nothing else
(log entry 6).
That an operation waits while a pass of either agent runs is log entry 19, and that a decoder `DEC_START` began stays still
while one is queued log entry 26. -/
def Obligations.PixelOutOfSequenceRaises : Prop :=
  ∀ (s : State) (p : Pixel) (last : Bool) (rest : List HostOp), s.host = .encStep p last :: rest →
    s.passRunning = false → s.enc.status ≠ .busy →
    step s = .next { s with
      enc := { s.enc with status := .fault (.contract .sequence) }
      host := rest }

/-- R185, R182, for any hash: `ENC_PASS` raises for no pixel list, and its length lies between one byte for 62 pixels and
five bytes a pixel. -/
def Obligations.EncodePassNeverRaises : Prop :=
  ∀ (H : Hash) (ps : List Pixel),
    ∃ bs, encPass H ps = .ok bs ∧ bs.length ≤ 5 * ps.length ∧ ps.length ≤ 62 * bs.length

/-! Whole passes. -/

/-- R3, the round trip, for any hash that both sides use (R248). -/
def Obligations.DecodePassInvertsEncodePass : Prop :=
  ∀ (H : Hash) (ps : List Pixel), ∃ bs, encPass H ps = .ok bs ∧ decPass H bs ps.length = .ok ps

/-- R247, lockstep, for any hash: after any number of decoder steps on an encoded stream, `PREV` and `CACHE` are those of
the encoder after as many pixels, and the pixels produced so far are the encoder's input. -/
def Obligations.DecoderStaysInLockstepWithEncoder : Prop :=
  ∀ (H : Hash) (ps : List Pixel) (m : Nat), ∃ bs d e, encPass H ps = .ok bs ∧
    decSteps H m (decStart bs ps.length) = .ok d ∧ encSteps H d.cnt ps encStart = .ok e ∧
    d.prev = e.prev ∧ d.cache = e.cache ∧ d.outPixels = ps.take d.cnt

/-- R191, R221, for any hash: a decode pass gives exactly `N` pixels or one of the four stream errors, never a contract
violation. -/
def Obligations.DecodePassResultIsExact : Prop :=
  ∀ (H : Hash) (inp : List Byte) (n : Nat),
    (∃ ps, decPass H inp n = .ok ps ∧ ps.length = n) ∨
    (∃ c, decPass H inp n = .error (.format c) ∧
      (c = .streamExhausted ∨ c = .truncatedChunk ∨ c = .pixelCount ∨ c = .trailingBytes))

/-- R203, for any hash: every sequence of chunks is accepted when the expected count is what they produce; canonical or
not (the spec's own choice, D24). -/
def Obligations.AnyChunkSequenceDecodes : Prop :=
  ∀ (H : Hash) (is : List Instr), (∀ i ∈ is, i.wellFormed = true) →
    ∃ ps, decPass H (is.flatMap chunkBytes) ((is.map pixelsOf).sum) = .ok ps ∧
      ps.length = (is.map pixelsOf).sum

/-- R191, R214: once `DEC_PASS` is the oldest operation and no pass is running, the machine, stepped, gives the result of
`DEC_PASS` as a function within `N + 1` steps, whatever the host has queued behind it, which stands; the encoder is left
alone. R214 keeps the pass itself from being redirected; that operations on the encoder wait for it too is the model's reading,
log entry 19. The bound counts the end-of-pass test in the last chunk's own step, log entry 5. That a decoder an earlier
`DEC_START` began stays still while `DEC_PASS` is queued is the model's choice, log entry 26. -/
def Obligations.MachineRunsDecodePass : Prop :=
  ∀ (s : State) (inp : List Byte) (n : Nat) (rest : List HostOp), s.host = .decPass inp n :: rest →
    s.passRunning = false →
    ∃ k t, k ≤ n + 1 ∧ core.run k s = .next t ∧ t.dec.result = some (decPass codecHash inp n) ∧
      t.enc = s.enc ∧ t.host = rest

/-- R171, R214: once `ENC_PASS` is the oldest operation and no pass is running, the machine, stepped, gives the result of
`ENC_PASS` as a function in `n + 1` steps, one for the START and one for each pixel, whatever the host has queued behind it,
which stands; the decoder is left alone. R214 keeps the pass itself from being redirected; that operations on the decoder wait
for it too is the model's reading, log entry 19. With nothing queued behind it the decoder is not running, or it would move first
(log entry 1); that a running decoder `DEC_START` began stays still while something is queued is the model's choice, log entry
26. -/
def Obligations.MachineRunsEncodePass : Prop :=
  ∀ (s : State) (ps : List Pixel) (rest : List HostOp), s.host = .encPass ps :: rest →
    s.passRunning = false → (s.dec.status ≠ .busy ∨ rest ≠ []) →
    ∃ t, core.run (ps.length + 1) s = .next t ∧ t.enc.result = some (encPass codecHash ps) ∧
      t.dec = s.dec ∧ t.host = rest

/-! Header and file. -/

/-- R103. -/
def Obligations.HeaderRoundTrip : Prop :=
  ∀ w h c cs : Nat, w < 2 ^ 32 → h < 2 ^ 32 → (c = 3 ∨ c = 4) → (cs = 0 ∨ cs = 1) →
    ∃ bs, buildHeader w h c cs = .ok bs ∧ bs.length = 14 ∧ parseHeader bs = .ok ⟨w, h, c, cs⟩

/-- R101: the bytes of a header, and the contract violation of an illegal field (width and height out of range: the spec's
own choice, D25). `MAGIC` is the value the spec took (log entry 12). -/
def Obligations.BuildHeaderLaysOutFields : Prop :=
  ∀ w h c cs : Int,
    if (0 ≤ w ∧ w < 2 ^ 32) ∧ (0 ≤ h ∧ h < 2 ^ 32) ∧ (c = 3 ∨ c = 4) ∧ (cs = 0 ∨ cs = 1)
    then buildHeader w h c cs =
      .ok ([0x71, 0x6F, 0x69, 0x66] ++ be32 w.toNat ++ be32 h.toNat ++ [byteOf c, byteOf cs])
    else buildHeader w h c cs = .error (.contract .headerField)

/-- R102: the defects of a header in the order they are reported (the spec's own choice, D25), bytes after the fourteenth
ignored. -/
def Obligations.HeaderDefectsAreReportedInOrder : Prop :=
  ∀ bs : List Byte,
    if bs.length < 14 then parseHeader bs = .error (.format .headerShort)
    else if bs.take 4 ≠ magic then parseHeader bs = .error (.format .badMagic)
    else if bs[12]? ≠ some 3 ∧ bs[12]? ≠ some 4 then parseHeader bs = .error (.format .badChannels)
    else if bs[13]? ≠ some 0 ∧ bs[13]? ≠ some 1 then parseHeader bs = .error (.format .badColorspace)
    else ∃ hd, parseHeader bs = .ok hd ∧ be32 hd.width = (bs.drop 4).take 4 ∧
      be32 hd.height = (bs.drop 8).take 4 ∧ hd.width < 2 ^ 32 ∧ hd.height < 2 ^ 32 ∧
      bs[12]? = some (BitVec.ofNat 8 hd.channels) ∧ (hd.channels = 3 ∨ hd.channels = 4) ∧
      bs[13]? = some (BitVec.ofNat 8 hd.colorspace) ∧ (hd.colorspace = 0 ∨ hd.colorspace = 1)

/-- R111: `BE32` byte by byte, and `UNBE32` its inverse both ways. -/
def Obligations.BigEndianBytesAndInverse : Prop :=
  (∀ v : Nat, v < 2 ^ 32 → ∃ b0 b1 b2 b3 : Byte, be32 v = [b0, b1, b2, b3] ∧
    b0.toNat = v / 2 ^ 24 ∧ b1.toNat = v / 2 ^ 16 % 256 ∧ b2.toNat = v / 2 ^ 8 % 256 ∧ b3.toNat = v % 256 ∧
    unbe32 b0 b1 b2 b3 = v) ∧
  (∀ b0 b1 b2 b3 : Byte, unbe32 b0 b1 b2 b3 < 2 ^ 32 ∧ be32 (unbe32 b0 b1 b2 b3) = [b0, b1, b2, b3])

/-- R108, for any hash, over header fields in range; an image with its own tags too (R112, R244). That an image's width and height come from the caller and
only their product is checked, so that rows of any lengths are accepted, is the model's choice, log entry 28; how an image
holds unpacked pixels is log entry 22. -/
def Obligations.FileRoundTrip : Prop :=
  (∀ (H : Hash) (fields : HeaderFields) (ps : List Pixel), ps.length = fields.width.val * fields.height.val →
    ∃ f, encodeFile H fields ps = .ok f ∧
      decodeFile H f =
        .ok (⟨fields.width.val, fields.height.val, fields.channels.toNat, fields.colorspace.val⟩, ps)) ∧
  (∀ (H : Hash) (w h : Fin (2 ^ 32)) (image : Image), (imagePixels image).length = w.val * h.val →
    ∃ f, encodeImage H w h image = .ok f ∧
      decodeFile H f = .ok (⟨w.val, h.val, (imageChannels image).toNat, image.colorSpace.val⟩, imagePixels image))

/-- R107, R215: the defects of a file in the order they are reported, for any hash (removing and checking the marker is
the spec's own choice, D10; its bytes are log entry 12). -/
def Obligations.FileDefectsAreReportedInOrder : Prop :=
  ∀ (H : Hash) (f : List Byte),
    match parseHeader f with
    | .error e => decodeFile H f = .error e
    | .ok hd =>
      if f.length < 22 then decodeFile H f = .error (.format .truncatedStream)
      else if f.drop (f.length - 8) ≠ [0, 0, 0, 0, 0, 0, 0, 1] then decodeFile H f = .error (.format .badEos)
      else ∃ inp, f = f.take 14 ++ inp ++ [0, 0, 0, 0, 0, 0, 0, 1] ∧
        match decPass H inp (hd.width * hd.height) with
        | .error e => decodeFile H f = .error e
        | .ok ps => decodeFile H f = .ok (hd, ps)

/-! The whole machine. -/

/-- The invariant holds at reset (R31, R182). -/
def Obligations.InvariantHoldsAtReset : Prop := Inv State.reset

/-- Every step keeps the invariant, from every state that meets it: `IN` canonical, `BP` in [0,L], `CNT` in [0,N] and equal
to the pixels produced, `RUN` in [0,61], every cache slot the zero pixel or a pixel of its own hash, and no error but
those the agents can raise (R24, R25, R181, R182, R198, R221). -/
def Obligations.EveryStepKeepsInvariant : Prop :=
  ∀ s t : State, Inv s → step s = .next t → Inv t

/-- R20, R50, of the agents' own moves: a decoder step does not read the encoder, whatever it holds, and leaves it alone; an
encoder step likewise. Which agent a step belongs to is the model's choice: the order of the two is log entry 1, and that a
decoder `DEC_START` began moves with nothing queued is log entry 26. -/
def Obligations.AgentsDoNotInterfere : Prop :=
  (∀ (s t : State) (e : Enc), (s.inDecPass = true ∨ s.host = []) → s.dec.status = .busy → step s = .next t →
    t.enc = s.enc ∧ step { s with enc := e } = .next { t with enc := e }) ∧
  (∀ (s t : State) (d : Dec), (s.host = [] ∨ s.enc.canMove = true) → s.dec.status ≠ .busy →
    d.status ≠ .busy → step s = .next t →
    t.dec = s.dec ∧ step { s with dec := d } = .next { t with dec := d })

/-- Log entries 7 and 13: the machine stops only when the host has issued nothing and neither agent can move, and it never
refuses while `MAX_PIXELS` is unbounded.
That a decoder `DEC_START` began moves with nothing queued, and so does not stop the machine, is log entry 26. -/
def Obligations.MachineStopsOnlyWhenNoAgentCanMove : Prop :=
  ∀ s : State,
    ((∃ f, step s = .fault f) ↔
      s.host = [] ∧ s.dec.status ≠ .busy ∧ (s.enc.status ≠ .busy ∨ s.enc.pixIn = [])) ∧
    (∀ r, step s ≠ .refused r)

/-! Host steps, parser contracts, and the wrappers of a file. -/

/-- R192, R255: `DEC_STEP` issued by the host runs the chunk at `BP` as a step of the pass does, raises what its bytes lack,
and out of sequence enters `CV_SEQUENCE` (R212; that it replaces an earlier status is log entry 6, and that a running pass
with `CNT = N` is such a case log entry 30). `OUT_PIXELS` is not read in `FAULT` (R204, log entry 31). The end-of-pass test in
the same step is log entry 5. The rest of the queue stands. No `ENC_PASS` or `DEC_PASS` is running (R214, log entry 19), and a decoder `DEC_START` began stays
still while an operation is queued (log entry 26). -/
def Obligations.HostDecStepRunsOneChunk : Prop :=
  ∀ (s : State) (rest : List HostOp), s.host = .decStep :: rest → s.passRunning = false →
    (∀ (i : Instr) (bytes : List Byte), s.dec.status = .busy → s.dec.cnt < s.dec.n →
      decode (remainingBytes s.dec) = .ok (i, bytes) →
      step s = thenEndPass (exec i { s with host := rest })) ∧
    (∀ e : Err, s.dec.status = .busy → s.dec.cnt < s.dec.n →
      decode (remainingBytes s.dec) = .error e →
      ∃ t, step s = .next t ∧ decoderFaults { s with host := rest } t e) ∧
    ((s.dec.status ≠ .busy ∨ s.dec.n ≤ s.dec.cnt) →
      ∃ t, step s = .next t ∧ decoderFaults { s with host := rest } t (.contract .sequence))

/-- R150: a parser completes on the bytes of its own kind and raises a contract violation on all others (which of two where
length and lead byte are both wrong is free, log entry 16). -/
def Obligations.ParsersRaiseOutsideTheirContract : Prop :=
  ∀ (prev : Pixel) (c : Cache) (bs : List Byte),
    (meetsContract .rgb bs → ∃ p, decRgb prev bs = .ok p) ∧
    (¬ meetsContract .rgb bs → ∃ e, decRgb prev bs = .error e ∧ contractError .rgb bs e) ∧
    (meetsContract .rgba bs → ∃ p, decRgba bs = .ok p) ∧
    (¬ meetsContract .rgba bs → ∃ e, decRgba bs = .error e ∧ contractError .rgba bs e) ∧
    (meetsContract .index bs → ∃ p, decIndex c bs = .ok p) ∧
    (¬ meetsContract .index bs → ∃ e, decIndex c bs = .error e ∧ contractError .index bs e) ∧
    (meetsContract .diff bs → ∃ p, decDiff prev bs = .ok p) ∧
    (¬ meetsContract .diff bs → ∃ e, decDiff prev bs = .error e ∧ contractError .diff bs e) ∧
    (meetsContract .luma bs → ∃ p, decLuma prev bs = .ok p) ∧
    (¬ meetsContract .luma bs → ∃ e, decLuma prev bs = .error e ∧ contractError .luma bs e) ∧
    (meetsContract .run bs → ∃ count, decRun bs = .ok count ∧ 1 ≤ count ∧ count ≤ 62) ∧
    (¬ meetsContract .run bs → ∃ e, decRun bs = .error e ∧ contractError .run bs e)

/-- R106, R221, for any hash and header fields in range (log entry 29): a file is header, chunk stream and end-of-stream marker; a
pixel list of the wrong length is `CV_PIXEL_COUNT`, and nothing else is raised. The marker's bytes are log entry 12. -/
def Obligations.EncodeFileLaysOutOrRejects : Prop :=
  ∀ (H : Hash) (f : HeaderFields) (ps : List Pixel),
    if ps.length ≠ f.width.val * f.height.val then encodeFile H f ps = .error (.contract .pixelCount)
    else ∃ hd body, buildHeader f.width.val f.height.val f.channels.toNat f.colorspace.val = .ok hd ∧
      encPass H ps = .ok body ∧ encodeFile H f ps = .ok (hd ++ body ++ [0, 0, 0, 0, 0, 0, 0, 1])

/-- R113, R114: the pixels of an image, padded with alpha 255 when it has three channels, stand row by row in the list the
encoder is given, and `pixelAt` finds each at its row and column; cutting the list into rows gives the image's rows back, any
list of width times height pixels is cut into rows that hold each pixel at its place, and a decoded file is the header with
such rows. How an image holds unpacked pixels, and that a file of three channels gives back four, is log entry 22. -/
def Obligations.ImagePixelsAreRowMajorAndPadded : Prop :=
  (∀ (width : Nat) (rows : List (List Pixel)) (tag : Fin 2), (∀ r ∈ rows, r.length = width) →
    (imagePixels ⟨.fourChannels rows, tag⟩).length = rows.length * width ∧
    rowsOfPixels width rows.length (imagePixels ⟨.fourChannels rows, tag⟩) = rows ∧
    ∀ row column,
      pixelAt width (imagePixels ⟨.fourChannels rows, tag⟩) row column = (rows[row]?).bind fun r => r[column]?) ∧
  (∀ (width : Nat) (rows : List (List (Byte × Byte × Byte))) (tag : Fin 2), (∀ r ∈ rows, r.length = width) →
    (imagePixels ⟨.threeChannels rows, tag⟩).length = rows.length * width ∧
    rowsOfPixels width rows.length (imagePixels ⟨.threeChannels rows, tag⟩) =
      rows.map (List.map fun p => ⟨p.1, p.2.1, p.2.2, 255⟩) ∧
    ∀ row column,
      pixelAt width (imagePixels ⟨.threeChannels rows, tag⟩) row column =
        ((rows[row]?).bind fun r => r[column]?).map fun p => ⟨p.1, p.2.1, p.2.2, 255⟩) ∧
  (∀ (width height : Nat) (ps : List Pixel), ps.length = height * width →
    (rowsOfPixels width height ps).length = height ∧ (∀ r ∈ rowsOfPixels width height ps, r.length = width) ∧
    flattenRows (rowsOfPixels width height ps) = ps ∧
    ∀ row column, pixelAt width ps row column = ((rowsOfPixels width height ps)[row]?).bind fun r => r[column]?) ∧
  (∀ (H : Hash) (f : List Byte),
    match decodeFile H f with
    | .error e => decodeImage H f = .error e
    | .ok (hd, ps) => ∃ rows, decodeImage H f = .ok (hd, rows) ∧ rows.length = hd.height ∧
      (∀ r ∈ rows, r.length = hd.width) ∧ flattenRows rows = ps)
end

