-- ==== Sys2Proof/Laws/Codec.lean ====
section
/-! SUPPORT. Dispatch, chunk lengths and what the parser gives. -/

namespace Sys2Proof

/-- The length a lead byte asks for is the length of its kind. -/
theorem chunkLen_eq_kindLength (b0 : Byte) : chunkLen b0 = kindLength (kind b0) := by
  revert b0; decide

theorem chunkLen_pos (b0 : Byte) : 0 < chunkLen b0 := by
  revert b0; decide

theorem chunkLen_le_five (b0 : Byte) : chunkLen b0 ≤ 5 := by
  revert b0; decide

@[simp] theorem inRange_iff (lo hi v : Int) : inRange lo hi v = true ↔ lo ≤ v ∧ v ≤ hi := by
  simp [inRange]

/-- The legal operands of DIFF. -/
theorem diff_legal (dr dg db : Int) : (Instr.diff dr dg db).violation = none ↔
    (-2 ≤ dr ∧ dr ≤ 1) ∧ (-2 ≤ dg ∧ dg ≤ 1) ∧ (-2 ≤ db ∧ db ≤ 1) := by
  simp [Instr.violation, and_assoc]

/-- The legal operands of LUMA. -/
theorem luma_legal (dg drg dbg : Int) : (Instr.luma dg drg dbg).violation = none ↔
    (-32 ≤ dg ∧ dg ≤ 31) ∧ (-8 ≤ drg ∧ drg ≤ 7) ∧ (-8 ≤ dbg ∧ dbg ≤ 7) := by
  simp [Instr.violation, and_assoc]

/-- The legal operands of RUN. -/
theorem run_legal (count : Nat) : (Instr.run count).violation = none ↔ 1 ≤ count ∧ count ≤ 62 := by
  simp [Instr.violation]

theorem wellFormed_iff (i : Instr) : i.wellFormed = true ↔ i.violation = none := by
  simp [Instr.wellFormed]

theorem diffFields_wellFormed (b0 : Byte) : (diffFields b0).violation = none := by
  revert b0; decide

theorem lumaGreen_inRange (b0 : Byte) : inRange (-32) 31 (field b0 0 6 - lumaGreenBias) = true := by
  revert b0; decide

theorem lumaRed_inRange (b1 : Byte) : inRange (-8) 7 (field b1 4 4 - lumaRedBlueBias) = true := by
  revert b1; decide

theorem lumaBlue_inRange (b1 : Byte) : inRange (-8) 7 (field b1 0 4 - lumaRedBlueBias) = true := by
  revert b1; decide

theorem lumaFields_wellFormed (b0 b1 : Byte) : (lumaFields b0 b1).violation = none := by
  simp [lumaFields, Instr.violation, lumaGreen_inRange, lumaRed_inRange, lumaBlue_inRange]

theorem runField_wellFormed (b0 : Byte) (h : kind b0 = .run) : (Instr.run (runField b0)).violation = none := by
  revert b0; decide

/-- Everything the parser can do with a lead byte and a payload. -/
theorem parseChunk_cases (b0 : Byte) (payload : List Byte) :
    (∃ r g b, kind b0 = .rgb ∧ payload = [r, g, b] ∧ parseChunk (b0 :: payload) = .ok (.rgb r g b)) ∨
    (∃ r g b a, kind b0 = .rgba ∧ payload = [r, g, b, a] ∧
      parseChunk (b0 :: payload) = .ok (.rgba r g b a)) ∨
    (kind b0 = .index ∧ payload = [] ∧ parseChunk (b0 :: payload) = .ok (.index (indexField b0))) ∨
    (kind b0 = .diff ∧ payload = [] ∧ parseChunk (b0 :: payload) = .ok (diffFields b0)) ∨
    (∃ b1, kind b0 = .luma ∧ payload = [b1] ∧ parseChunk (b0 :: payload) = .ok (lumaFields b0 b1)) ∨
    (kind b0 = .run ∧ payload = [] ∧ parseChunk (b0 :: payload) = .ok (.run (runField b0))) ∨
    (payload.length + 1 ≠ chunkLen b0 ∧
      parseChunk (b0 :: payload) = .error (.contract .chunkLength)) := by
  rw [chunkLen_eq_kindLength]
  simp only [parseChunk]
  cases kind b0 <;> rcases payload with _ | ⟨x, _ | ⟨y, _ | ⟨z, _ | ⟨w, _ | ⟨v, t⟩⟩⟩⟩⟩ <;>
    first
    | exact .inl ⟨_, _, _, rfl, rfl, rfl⟩
    | exact .inr (.inl ⟨_, _, _, _, rfl, rfl, rfl⟩)
    | exact .inr (.inr (.inl ⟨rfl, rfl, rfl⟩))
    | exact .inr (.inr (.inr (.inl ⟨rfl, rfl, rfl⟩)))
    | exact .inr (.inr (.inr (.inr (.inl ⟨_, rfl, rfl, rfl⟩))))
    | exact .inr (.inr (.inr (.inr (.inr (.inl ⟨rfl, rfl, rfl⟩)))))
    | exact .inr (.inr (.inr (.inr (.inr (.inr ⟨by simp [kindLength], rfl⟩)))))

/-- A chunk of the right length parses, to a well-formed instruction of its kind and length. -/
theorem parseChunk_ok (b0 : Byte) (payload : List Byte) (h : payload.length + 1 = chunkLen b0) :
    ∃ i, parseChunk (b0 :: payload) = .ok i ∧ i.violation = none ∧ i.kind = kind b0 ∧
      i.length = payload.length + 1 := by
  rcases parseChunk_cases b0 payload with ⟨r, g, b, hk, rfl, hp⟩ | ⟨r, g, b, a, hk, rfl, hp⟩ | ⟨hk, rfl, hp⟩ |
    ⟨hk, rfl, hp⟩ | ⟨b1, hk, rfl, hp⟩ | ⟨hk, rfl, hp⟩ | ⟨hl, _⟩
  · exact ⟨_, hp, rfl, hk.symm, rfl⟩
  · exact ⟨_, hp, rfl, hk.symm, rfl⟩
  · exact ⟨_, hp, rfl, hk.symm, rfl⟩
  · exact ⟨_, hp, diffFields_wellFormed b0, hk.symm, rfl⟩
  · exact ⟨_, hp, lumaFields_wellFormed b0 b1, hk.symm, rfl⟩
  · exact ⟨_, hp, runField_wellFormed b0 hk, hk.symm, rfl⟩
  · exact absurd h hl

/-- The bytes of an instruction are as many as its length. -/
theorem chunkBytes_length (i : Instr) : (chunkBytes i).length = i.length := by
  cases i <;> rfl

/-- The decoder takes the first chunk when the bytes it asks for are there. -/
theorem decode_of_le (b0 : Byte) (rest : List Byte) (h : chunkLen b0 ≤ rest.length + 1) :
    ∃ i, decode (b0 :: rest) = .ok (i, (b0 :: rest).drop (chunkLen b0)) ∧
      parseChunk ((b0 :: rest).take (chunkLen b0)) = .ok i ∧ i.violation = none ∧
      i.length = chunkLen b0 := by
  have hpos := chunkLen_pos b0
  obtain ⟨k, hk⟩ : ∃ k, chunkLen b0 = k + 1 := ⟨chunkLen b0 - 1, by omega⟩
  have hlen : (rest.take k).length + 1 = chunkLen b0 := by simp; omega
  obtain ⟨i, hp, hv, _, hl⟩ := parseChunk_ok b0 (rest.take k) hlen
  have htake : (b0 :: rest).take (chunkLen b0) = b0 :: rest.take k := by rw [hk]; rfl
  refine ⟨i, ?_, ?_, hv, by omega⟩
  · simp only [decode]
    rw [if_neg (by simp only [List.length_cons]; omega), htake, hp]
  · rw [htake]; exact hp

end Sys2Proof
end

