-- ==== Sys2Proof/Laws/Memory.lean ====
section
/-! SUPPORT. The decoder's memory: reads after writes, and the canonical form is kept by every operation. -/

namespace Sys2Proof.Machine

theorem memoryRead_of_lt (m : Memory) (lo a : Nat) (h : memoryWfFrom lo m = true) (ha : a < lo) :
    memoryRead m a = unlistedByte := by
  induction m generalizing lo with
  | nil => rfl
  | cons e t ih =>
    obtain ⟨k, v⟩ := e
    simp only [memoryWfFrom, Bool.and_eq_true, decide_eq_true_eq] at h
    simp only [memoryRead]
    rw [if_neg (by omega)]
    exact ih (k + 1) h.2 (by omega)

theorem memoryRead_entry_append (a b : Nat) (v : Byte) (t : Memory)
    (ht : a = b → v = unlistedByte → memoryRead t b = unlistedByte) :
    memoryRead (memoryEntry a v ++ t) b = if a = b then v else memoryRead t b := by
  unfold memoryEntry
  split
  · rename_i hv
    split
    · rename_i hab
      simpa [hv] using ht hab hv
    · simp
  · simp [memoryRead]

/-- A read after a write: the byte written at its address, the old byte elsewhere. -/
theorem memoryRead_write (m : Memory) (lo a b : Nat) (v : Byte) (h : memoryWfFrom lo m = true) :
    memoryRead (memoryWrite m a v) b = if a = b then v else memoryRead m b := by
  induction m generalizing lo with
  | nil => simpa [memoryWrite] using memoryRead_entry_append a b v [] (fun _ _ => rfl)
  | cons e t ih =>
    obtain ⟨k, w⟩ := e
    have hwf := h
    simp only [memoryWfFrom, Bool.and_eq_true, decide_eq_true_eq] at h
    simp only [memoryWrite]
    split
    · rename_i hak
      refine memoryRead_entry_append a b v _ fun hab _ => ?_
      simp only [memoryRead]
      rw [if_neg (by omega)]
      exact memoryRead_of_lt t (k + 1) b h.2 (by omega)
    · split
      · rename_i _ hak
        subst hak
        rw [memoryRead_entry_append a b v t fun hab _ => memoryRead_of_lt t (a + 1) b h.2 (by omega)]
        simp only [memoryRead]
        split <;> simp_all
      · rename_i h1 h2
        simp only [memoryRead, ih (k + 1) h.2]
        split
        · rename_i hkb
          rw [if_neg (by omega)]
        · rfl

theorem memoryWfFrom_mono (m : Memory) (lo lo' : Nat) (h : memoryWfFrom lo' m = true) (hle : lo ≤ lo') :
    memoryWfFrom lo m = true := by
  cases m with
  | nil => rfl
  | cons e t =>
    obtain ⟨k, v⟩ := e
    simp only [memoryWfFrom, Bool.and_eq_true, decide_eq_true_eq] at h ⊢
    exact ⟨⟨by omega, h.1.2⟩, h.2⟩

theorem memoryWfFrom_entry_append (a lo : Nat) (v : Byte) (t : Memory) (hlo : lo ≤ a)
    (ht : memoryWfFrom (a + 1) t = true) : memoryWfFrom lo (memoryEntry a v ++ t) = true := by
  unfold memoryEntry
  split
  · exact memoryWfFrom_mono t lo (a + 1) ht (by omega)
  · rename_i hv
    simp [memoryWfFrom, hlo, hv, ht]

theorem memoryWfFrom_write (m : Memory) (lo a : Nat) (v : Byte) (h : memoryWfFrom lo m = true) (ha : lo ≤ a) :
    memoryWfFrom lo (memoryWrite m a v) = true := by
  induction m generalizing lo with
  | nil => simpa [memoryWrite] using memoryWfFrom_entry_append a lo v [] ha rfl
  | cons e t ih =>
    obtain ⟨k, w⟩ := e
    have hwf := h
    simp only [memoryWfFrom, Bool.and_eq_true, decide_eq_true_eq] at h
    simp only [memoryWrite]
    split
    · refine memoryWfFrom_entry_append a lo v _ ha ?_
      simp only [memoryWfFrom, Bool.and_eq_true, decide_eq_true_eq]
      exact ⟨⟨by omega, h.1.2⟩, h.2⟩
    · split
      · rename_i _ hak
        subst hak
        exact memoryWfFrom_entry_append a lo v t ha h.2
      · simp only [memoryWfFrom, Bool.and_eq_true, decide_eq_true_eq]
        exact ⟨h.1, ih (k + 1) h.2 (by omega)⟩

/-- A write keeps the canonical form. -/
theorem memoryWrite_wf (m : Memory) (a : Nat) (v : Byte) (h : Memory.wf m = true) :
    Memory.wf (memoryWrite m a v) = true :=
  memoryWfFrom_write m 0 a v h (Nat.zero_le a)

/-- Loading a byte sequence keeps the canonical form. -/
theorem memoryLoad_wf (bs : List Byte) (m : Memory) (a : Nat) (h : Memory.wf m = true) :
    Memory.wf (memoryLoad m a bs) = true := by
  induction bs generalizing m a with
  | nil => exact h
  | cons b bs ih => exact ih _ _ (memoryWrite_wf m a b h)

/-- A load leaves every address outside the loaded range alone. -/
theorem memoryRead_load_outside (bs : List Byte) (m : Memory) (a b : Nat) (h : Memory.wf m = true)
    (hb : b < a ∨ a + bs.length ≤ b) : memoryRead (memoryLoad m a bs) b = memoryRead m b := by
  induction bs generalizing m a with
  | nil => rfl
  | cons v bs ih =>
    simp only [List.length_cons] at hb
    simp only [memoryLoad]
    rw [ih _ _ (memoryWrite_wf m a v h) (by omega), memoryRead_write m 0 a b v h, if_neg (by omega)]

/-- A load puts each byte at its address. -/
theorem memoryRead_load_inside (bs : List Byte) (m : Memory) (a k : Nat) (h : Memory.wf m = true)
    (hk : k < bs.length) : memoryRead (memoryLoad m a bs) (a + k) = bs[k] := by
  induction bs generalizing m a k with
  | nil => simp at hk
  | cons v bs ih =>
    simp only [memoryLoad]
    cases k with
    | zero =>
      rw [memoryRead_load_outside bs _ (a + 1) (a + 0) (memoryWrite_wf m a v h) (by omega),
        memoryRead_write m 0 a (a + 0) v h]
      simp
    | succ k =>
      have := ih (memoryWrite m a v) (a + 1) k (memoryWrite_wf m a v h) (by simpa using hk)
      simpa [Nat.add_assoc, Nat.add_comm 1 k] using this

@[simp] theorem memoryBytes_length (m : Memory) (a k : Nat) : (memoryBytes m a k).length = k := by
  induction k generalizing a with
  | zero => rfl
  | succ k ih => simp [memoryBytes, ih]

/-- The bytes read back are the bytes at their addresses. -/
theorem memoryBytes_getElem (m : Memory) (a k j : Nat) (h : j < (memoryBytes m a k).length) :
    (memoryBytes m a k)[j] = memoryRead m (a + j) := by
  induction k generalizing a j with
  | zero => simp [memoryBytes] at h
  | succ k ih =>
    cases j with
    | zero => simp [memoryBytes]
    | succ j => simp [memoryBytes, ih, Nat.add_assoc, Nat.add_comm 1 j]

/-- A stretch of bytes is its first part and then its second. -/
theorem memoryBytes_append (m : Memory) (a j k : Nat) :
    memoryBytes m a (j + k) = memoryBytes m a j ++ memoryBytes m (a + j) k := by
  induction j generalizing a with
  | zero => simp [memoryBytes]
  | succ j ih =>
    have h : j + 1 + k = (j + k) + 1 := by omega
    rw [h]
    simp only [memoryBytes, ih, List.cons_append]
    rw [show a + 1 + j = a + (j + 1) by omega]

end Sys2Proof.Machine
end

