-- ==== Sys2Proof/Laws/State.lean ====
section
/-! SUPPORT. One lemma per field and update, so that no proof unfolds a record update. -/

namespace Sys2Proof.Machine

/-! Dec.produce -/
@[simp] theorem Dec.produce_status (d : Dec) (p : Pixel) : (d.produce p).status = d.status := rfl
@[simp] theorem Dec.produce_prev (d : Dec) (p : Pixel) : (d.produce p).prev = d.prev := rfl
@[simp] theorem Dec.produce_cache (d : Dec) (p : Pixel) : (d.produce p).cache = d.cache := rfl
@[simp] theorem Dec.produce_bp (d : Dec) (p : Pixel) : (d.produce p).bp = d.bp := rfl
@[simp] theorem Dec.produce_cnt (d : Dec) (p : Pixel) : (d.produce p).cnt = d.cnt + 1 := rfl
@[simp] theorem Dec.produce_mem (d : Dec) (p : Pixel) : (d.produce p).mem = d.mem := rfl
@[simp] theorem Dec.produce_len (d : Dec) (p : Pixel) : (d.produce p).len = d.len := rfl
@[simp] theorem Dec.produce_n (d : Dec) (p : Pixel) : (d.produce p).n = d.n := rfl
@[simp] theorem Dec.produce_outPixels (d : Dec) (p : Pixel) : (d.produce p).outPixels = d.outPixels ++ [p] := rfl

/-! Dec.store -/
@[simp] theorem Dec.store_status (H : Hash) (d : Dec) (p : Pixel) : (d.store H p).status = d.status := rfl
@[simp] theorem Dec.store_prev (H : Hash) (d : Dec) (p : Pixel) : (d.store H p).prev = d.prev := rfl
@[simp] theorem Dec.store_cache (H : Hash) (d : Dec) (p : Pixel) : (d.store H p).cache = cacheStore d.cache (H p) p := rfl
@[simp] theorem Dec.store_bp (H : Hash) (d : Dec) (p : Pixel) : (d.store H p).bp = d.bp := rfl
@[simp] theorem Dec.store_cnt (H : Hash) (d : Dec) (p : Pixel) : (d.store H p).cnt = d.cnt := rfl
@[simp] theorem Dec.store_mem (H : Hash) (d : Dec) (p : Pixel) : (d.store H p).mem = d.mem := rfl
@[simp] theorem Dec.store_len (H : Hash) (d : Dec) (p : Pixel) : (d.store H p).len = d.len := rfl
@[simp] theorem Dec.store_n (H : Hash) (d : Dec) (p : Pixel) : (d.store H p).n = d.n := rfl
@[simp] theorem Dec.store_outPixels (H : Hash) (d : Dec) (p : Pixel) : (d.store H p).outPixels = d.outPixels := rfl

/-! Dec.setPrev -/
@[simp] theorem Dec.setPrev_status (d : Dec) (p : Pixel) : (d.setPrev p).status = d.status := rfl
@[simp] theorem Dec.setPrev_prev (d : Dec) (p : Pixel) : (d.setPrev p).prev = p := rfl
@[simp] theorem Dec.setPrev_cache (d : Dec) (p : Pixel) : (d.setPrev p).cache = d.cache := rfl
@[simp] theorem Dec.setPrev_bp (d : Dec) (p : Pixel) : (d.setPrev p).bp = d.bp := rfl
@[simp] theorem Dec.setPrev_cnt (d : Dec) (p : Pixel) : (d.setPrev p).cnt = d.cnt := rfl
@[simp] theorem Dec.setPrev_mem (d : Dec) (p : Pixel) : (d.setPrev p).mem = d.mem := rfl
@[simp] theorem Dec.setPrev_len (d : Dec) (p : Pixel) : (d.setPrev p).len = d.len := rfl
@[simp] theorem Dec.setPrev_n (d : Dec) (p : Pixel) : (d.setPrev p).n = d.n := rfl
@[simp] theorem Dec.setPrev_outPixels (d : Dec) (p : Pixel) : (d.setPrev p).outPixels = d.outPixels := rfl

/-! Dec.advance -/
@[simp] theorem Dec.advance_status (d : Dec) (k : Nat) : (d.advance k).status = d.status := rfl
@[simp] theorem Dec.advance_prev (d : Dec) (k : Nat) : (d.advance k).prev = d.prev := rfl
@[simp] theorem Dec.advance_cache (d : Dec) (k : Nat) : (d.advance k).cache = d.cache := rfl
@[simp] theorem Dec.advance_bp (d : Dec) (k : Nat) : (d.advance k).bp = d.bp + k := rfl
@[simp] theorem Dec.advance_cnt (d : Dec) (k : Nat) : (d.advance k).cnt = d.cnt := rfl
@[simp] theorem Dec.advance_mem (d : Dec) (k : Nat) : (d.advance k).mem = d.mem := rfl
@[simp] theorem Dec.advance_len (d : Dec) (k : Nat) : (d.advance k).len = d.len := rfl
@[simp] theorem Dec.advance_n (d : Dec) (k : Nat) : (d.advance k).n = d.n := rfl
@[simp] theorem Dec.advance_outPixels (d : Dec) (k : Nat) : (d.advance k).outPixels = d.outPixels := rfl

/-! Dec.codeStored -/
@[simp] theorem Dec.codeStored_status (H : Hash) (d : Dec) (p : Pixel) (k : Nat) : (d.codeStored H p k).status = d.status := rfl
@[simp] theorem Dec.codeStored_prev (H : Hash) (d : Dec) (p : Pixel) (k : Nat) : (d.codeStored H p k).prev = p := rfl
@[simp] theorem Dec.codeStored_cache (H : Hash) (d : Dec) (p : Pixel) (k : Nat) : (d.codeStored H p k).cache = cacheStore d.cache (H p) p := rfl
@[simp] theorem Dec.codeStored_bp (H : Hash) (d : Dec) (p : Pixel) (k : Nat) : (d.codeStored H p k).bp = d.bp + k := rfl
@[simp] theorem Dec.codeStored_cnt (H : Hash) (d : Dec) (p : Pixel) (k : Nat) : (d.codeStored H p k).cnt = d.cnt + 1 := rfl
@[simp] theorem Dec.codeStored_mem (H : Hash) (d : Dec) (p : Pixel) (k : Nat) : (d.codeStored H p k).mem = d.mem := rfl
@[simp] theorem Dec.codeStored_len (H : Hash) (d : Dec) (p : Pixel) (k : Nat) : (d.codeStored H p k).len = d.len := rfl
@[simp] theorem Dec.codeStored_n (H : Hash) (d : Dec) (p : Pixel) (k : Nat) : (d.codeStored H p k).n = d.n := rfl
@[simp] theorem Dec.codeStored_outPixels (H : Hash) (d : Dec) (p : Pixel) (k : Nat) : (d.codeStored H p k).outPixels = d.outPixels ++ [p] := rfl

/-! Dec.codeUnstored -/
@[simp] theorem Dec.codeUnstored_status (d : Dec) (p : Pixel) (k : Nat) : (d.codeUnstored p k).status = d.status := rfl
@[simp] theorem Dec.codeUnstored_prev (d : Dec) (p : Pixel) (k : Nat) : (d.codeUnstored p k).prev = p := rfl
@[simp] theorem Dec.codeUnstored_cache (d : Dec) (p : Pixel) (k : Nat) : (d.codeUnstored p k).cache = d.cache := rfl
@[simp] theorem Dec.codeUnstored_bp (d : Dec) (p : Pixel) (k : Nat) : (d.codeUnstored p k).bp = d.bp + k := rfl
@[simp] theorem Dec.codeUnstored_cnt (d : Dec) (p : Pixel) (k : Nat) : (d.codeUnstored p k).cnt = d.cnt + 1 := rfl
@[simp] theorem Dec.codeUnstored_mem (d : Dec) (p : Pixel) (k : Nat) : (d.codeUnstored p k).mem = d.mem := rfl
@[simp] theorem Dec.codeUnstored_len (d : Dec) (p : Pixel) (k : Nat) : (d.codeUnstored p k).len = d.len := rfl
@[simp] theorem Dec.codeUnstored_n (d : Dec) (p : Pixel) (k : Nat) : (d.codeUnstored p k).n = d.n := rfl
@[simp] theorem Dec.codeUnstored_outPixels (d : Dec) (p : Pixel) (k : Nat) : (d.codeUnstored p k).outPixels = d.outPixels ++ [p] := rfl

/-! Dec.raise -/
@[simp] theorem Dec.raise_status (d : Dec) (e : Err) : (d.raise e).status = .fault e := rfl
@[simp] theorem Dec.raise_prev (d : Dec) (e : Err) : (d.raise e).prev = d.prev := rfl
@[simp] theorem Dec.raise_cache (d : Dec) (e : Err) : (d.raise e).cache = d.cache := rfl
@[simp] theorem Dec.raise_bp (d : Dec) (e : Err) : (d.raise e).bp = d.bp := rfl
@[simp] theorem Dec.raise_cnt (d : Dec) (e : Err) : (d.raise e).cnt = d.cnt := rfl
@[simp] theorem Dec.raise_mem (d : Dec) (e : Err) : (d.raise e).mem = d.mem := rfl
@[simp] theorem Dec.raise_len (d : Dec) (e : Err) : (d.raise e).len = d.len := rfl
@[simp] theorem Dec.raise_n (d : Dec) (e : Err) : (d.raise e).n = d.n := rfl
@[simp] theorem Dec.raise_outPixels (d : Dec) (e : Err) : (d.raise e).outPixels = Config.faultedPixels e d.outPixels := rfl

/-! decStart -/
@[simp] theorem decStart_status (inp : List Byte) (n : Nat) : (decStart inp n).status = .busy := rfl
@[simp] theorem decStart_prev (inp : List Byte) (n : Nat) : (decStart inp n).prev = Config.startPixel := rfl
@[simp] theorem decStart_cache (inp : List Byte) (n : Nat) : (decStart inp n).cache = Vector.replicate 64 Config.zeroPixel := rfl
@[simp] theorem decStart_bp (inp : List Byte) (n : Nat) : (decStart inp n).bp = 0 := rfl
@[simp] theorem decStart_cnt (inp : List Byte) (n : Nat) : (decStart inp n).cnt = 0 := rfl
@[simp] theorem decStart_mem (inp : List Byte) (n : Nat) : (decStart inp n).mem = memoryLoad [] 0 inp := rfl
@[simp] theorem decStart_len (inp : List Byte) (n : Nat) : (decStart inp n).len = inp.length := rfl
@[simp] theorem decStart_n (inp : List Byte) (n : Nat) : (decStart inp n).n = n := rfl
@[simp] theorem decStart_outPixels (inp : List Byte) (n : Nat) : (decStart inp n).outPixels = [] := rfl

/-! Dec.placeProgram -/
@[simp] theorem Dec.placeProgram_status (d : Dec) (bs : List Byte) : (d.placeProgram bs).status = .busy := rfl
@[simp] theorem Dec.placeProgram_prev (d : Dec) (bs : List Byte) : (d.placeProgram bs).prev = d.prev := rfl
@[simp] theorem Dec.placeProgram_cache (d : Dec) (bs : List Byte) : (d.placeProgram bs).cache = d.cache := rfl
@[simp] theorem Dec.placeProgram_bp (d : Dec) (bs : List Byte) : (d.placeProgram bs).bp = d.bp := rfl
@[simp] theorem Dec.placeProgram_cnt (d : Dec) (bs : List Byte) : (d.placeProgram bs).cnt = d.cnt := rfl
@[simp] theorem Dec.placeProgram_mem (d : Dec) (bs : List Byte) : (d.placeProgram bs).mem = memoryLoad d.mem d.bp bs := rfl
@[simp] theorem Dec.placeProgram_len (d : Dec) (bs : List Byte) : (d.placeProgram bs).len = max d.len (d.bp + bs.length) := rfl
@[simp] theorem Dec.placeProgram_n (d : Dec) (bs : List Byte) : (d.placeProgram bs).n = max d.n (d.cnt + Config.runMax + 1) := rfl
@[simp] theorem Dec.placeProgram_outPixels (d : Dec) (bs : List Byte) : (d.placeProgram bs).outPixels = d.outPixels := rfl

/-! Enc.raise -/
@[simp] theorem Enc.raise_status (e : Enc) (err : Err) : (e.raise err).status = .fault err := rfl
@[simp] theorem Enc.raise_prev (e : Enc) (err : Err) : (e.raise err).prev = e.prev := rfl
@[simp] theorem Enc.raise_cache (e : Enc) (err : Err) : (e.raise err).cache = e.cache := rfl
@[simp] theorem Enc.raise_run (e : Enc) (err : Err) : (e.raise err).run = e.run := rfl
@[simp] theorem Enc.raise_pixIn (e : Enc) (err : Err) : (e.raise err).pixIn = e.pixIn := rfl
@[simp] theorem Enc.raise_outBytes (e : Enc) (err : Err) : (e.raise err).outBytes = e.outBytes := rfl

/-! encStart -/
@[simp] theorem encStart_status  : (encStart).status = .busy := rfl
@[simp] theorem encStart_prev  : (encStart).prev = Config.startPixel := rfl
@[simp] theorem encStart_cache  : (encStart).cache = Vector.replicate 64 Config.zeroPixel := rfl
@[simp] theorem encStart_run  : (encStart).run = 0 := rfl
@[simp] theorem encStart_pixIn  : (encStart).pixIn = [] := rfl
@[simp] theorem encStart_outBytes  : (encStart).outBytes = [] := rfl

/-! encPassStart -/
@[simp] theorem encPassStart_status (ps : List Pixel) : (encPassStart ps).status = if ps.isEmpty then .done else .busy := rfl
@[simp] theorem encPassStart_prev (ps : List Pixel) : (encPassStart ps).prev = Config.startPixel := rfl
@[simp] theorem encPassStart_cache (ps : List Pixel) : (encPassStart ps).cache = Vector.replicate 64 Config.zeroPixel := rfl
@[simp] theorem encPassStart_run (ps : List Pixel) : (encPassStart ps).run = 0 := rfl
@[simp] theorem encPassStart_pixIn (ps : List Pixel) : (encPassStart ps).pixIn = ps := rfl
@[simp] theorem encPassStart_outBytes (ps : List Pixel) : (encPassStart ps).outBytes = [] := rfl

/-! Dec.produceTimes: a RUN appends copies and changes nothing else. -/

theorem Dec.produceTimes_eq (k : Nat) (p : Pixel) (d : Dec) :
    d.produceTimes k p = { d with outPixels := d.outPixels ++ List.replicate k p, cnt := d.cnt + k } := by
  induction k generalizing d with
  | zero => simp [Dec.produceTimes]
  | succ k ih =>
    simp [Dec.produceTimes, ih, Dec.produce, List.replicate_succ]
    omega

@[simp] theorem Dec.produceTimes_status (k : Nat) (p : Pixel) (d : Dec) :
    (d.produceTimes k p).status = d.status := by simp [Dec.produceTimes_eq]
@[simp] theorem Dec.produceTimes_prev (k : Nat) (p : Pixel) (d : Dec) :
    (d.produceTimes k p).prev = d.prev := by simp [Dec.produceTimes_eq]
@[simp] theorem Dec.produceTimes_cache (k : Nat) (p : Pixel) (d : Dec) :
    (d.produceTimes k p).cache = d.cache := by simp [Dec.produceTimes_eq]
@[simp] theorem Dec.produceTimes_bp (k : Nat) (p : Pixel) (d : Dec) :
    (d.produceTimes k p).bp = d.bp := by simp [Dec.produceTimes_eq]
@[simp] theorem Dec.produceTimes_cnt (k : Nat) (p : Pixel) (d : Dec) :
    (d.produceTimes k p).cnt = d.cnt + k := by simp [Dec.produceTimes_eq]
@[simp] theorem Dec.produceTimes_mem (k : Nat) (p : Pixel) (d : Dec) :
    (d.produceTimes k p).mem = d.mem := by simp [Dec.produceTimes_eq]
@[simp] theorem Dec.produceTimes_len (k : Nat) (p : Pixel) (d : Dec) :
    (d.produceTimes k p).len = d.len := by simp [Dec.produceTimes_eq]
@[simp] theorem Dec.produceTimes_n (k : Nat) (p : Pixel) (d : Dec) :
    (d.produceTimes k p).n = d.n := by simp [Dec.produceTimes_eq]
@[simp] theorem Dec.produceTimes_outPixels (k : Nat) (p : Pixel) (d : Dec) :
    (d.produceTimes k p).outPixels = d.outPixels ++ List.replicate k p := by simp [Dec.produceTimes_eq]

/-! Dec.endPass changes the status alone, and the output if it raises. -/

@[simp] theorem Dec.endPass_prev (d : Dec) : d.endPass.prev = d.prev := by
  unfold Dec.endPass; split <;> (try split) <;> rfl
@[simp] theorem Dec.endPass_cache (d : Dec) : d.endPass.cache = d.cache := by
  unfold Dec.endPass; split <;> (try split) <;> rfl
@[simp] theorem Dec.endPass_bp (d : Dec) : d.endPass.bp = d.bp := by
  unfold Dec.endPass; split <;> (try split) <;> rfl
@[simp] theorem Dec.endPass_cnt (d : Dec) : d.endPass.cnt = d.cnt := by
  unfold Dec.endPass; split <;> (try split) <;> rfl
@[simp] theorem Dec.endPass_mem (d : Dec) : d.endPass.mem = d.mem := by
  unfold Dec.endPass; split <;> (try split) <;> rfl
@[simp] theorem Dec.endPass_len (d : Dec) : d.endPass.len = d.len := by
  unfold Dec.endPass; split <;> (try split) <;> rfl
@[simp] theorem Dec.endPass_n (d : Dec) : d.endPass.n = d.n := by
  unfold Dec.endPass; split <;> (try split) <;> rfl
/-- Of the output nothing is said when bytes are left over. -/
theorem Dec.endPass_outPixels (d : Dec) (h : ∀ e, d.endPass.status ≠ .fault e) : d.endPass.outPixels = d.outPixels := by
  unfold Dec.endPass at h ⊢
  split
  · rename_i hb
    rw [if_pos hb] at h
    split
    · rfl
    · rename_i hl; rw [if_neg hl] at h; exact absurd rfl (h _)
  · rfl

/-! The placed program. -/

@[simp] theorem placeProgram_enc (s : State) (bs : List Byte) : (placeProgram s bs).enc = s.enc := rfl
@[simp] theorem placeProgram_dec (s : State) (bs : List Byte) :
    (placeProgram s bs).dec = s.dec.placeProgram bs := rfl
@[simp] theorem placeProgram_host (s : State) (bs : List Byte) : (placeProgram s bs).host = s.host := rfl
@[simp] theorem placeProgram_inDecPass (s : State) (bs : List Byte) : (placeProgram s bs).inDecPass = true := rfl

end Sys2Proof.Machine
end

