-- ==== Sys2Proof/Laws/Ops.lean ====
section
/-! SUPPORT. One lemma per shared operation that says everything it can do. -/

namespace Sys2Proof.Machine

@[simp] theorem cacheLookup_store (c : Cache) (i j : Index) (p : Pixel) :
    cacheLookup (cacheStore c i p) j = if j = i then p else cacheLookup c j := by
  unfold cacheLookup cacheStore
  simp only [Vector.get_eq_getElem, Vector.getElem_set]
  by_cases h : i = j
  · subst h; simp
  · have h' : ¬ i.val = j.val := fun e => h (Fin.ext e)
    simp [h', Ne.symm h]

@[simp] theorem cacheLookup_replicate (p : Pixel) (i : Index) : cacheLookup (Vector.replicate 64 p) i = p := by
  simp [cacheLookup, Vector.get_eq_getElem]

/-- Issuing a chunk: out of sequence, a bad operand, or the chunk's effect. -/
theorem Dec.issue_cases (d : Dec) (i : Instr) (r : Raises Dec) :
    (d.ready = false ∧ d.issue i r = .error (.contract .sequence)) ∨
    (d.ready = true ∧ ∃ c, i.violation = some c ∧ d.issue i r = .error (.contract c)) ∨
    (d.ready = true ∧ i.violation = none ∧ d.issue i r = r) := by
  unfold Dec.issue
  cases hr : d.ready <;> cases hv : i.violation <;> simp

/-- A chunk with legal operands, issued in sequence, has its effect. -/
theorem Dec.issue_ready (d : Dec) (i : Instr) (r : Raises Dec) (hr : d.ready = true) (hv : i.violation = none) :
    d.issue i r = r := by
  simp [Dec.issue, hr, hv]

theorem Dec.ready_iff (d : Dec) : d.ready = true ↔ d.status = .busy ∧ d.cnt < d.n := by
  simp [Dec.ready]

/-- Every arm of `exec` is the decoder's effect under the machine's hash, with error entry. -/
theorem exec_eq (i : Instr) (s : State) : exec i s = s.resolveDec (s.dec.exec codecHash i) := by
  cases i <;> rfl

/-- A decoder operation always gives a next state, in which the encoder and the queue are as before. -/
theorem State.resolveDec_next (s : State) (r : Raises Dec) :
    ∃ d, s.resolveDec r = .next { s with dec := d } ∧
      ((r = .ok d) ∨ ∃ e, r = .error e ∧ d = s.dec.raise e) := by
  cases r with
  | ok d => exact ⟨d, rfl, .inl rfl⟩
  | error e => exact ⟨_, rfl, .inr ⟨e, rfl, rfl⟩⟩

/-- An encoder operation always gives a next state, in which the decoder and the queue are as before. -/
theorem State.resolveEnc_next (s : State) (r : Raises Enc) :
    ∃ e, s.resolveEnc r = .next { s with enc := e } ∧
      ((r = .ok e) ∨ ∃ err, r = .error err ∧ e = s.enc.raise err) := by
  cases r with
  | ok e => exact ⟨e, rfl, .inl rfl⟩
  | error err => exact ⟨_, rfl, .inr ⟨err, rfl, rfl⟩⟩

/-- The end-of-pass test: still expecting pixels, done, or bytes left over. -/
theorem Dec.endPass_cases (d : Dec) (h : d.status = .busy) :
    (d.cnt < d.n ∧ d.endPass = d) ∨
    (d.n ≤ d.cnt ∧ d.bp = d.len ∧ d.endPass = { d with status := .done }) ∨
    (d.n ≤ d.cnt ∧ d.bp ≠ d.len ∧ d.endPass = d.raise (.format .trailingBytes)) := by
  unfold Dec.endPass
  by_cases hc : d.cnt < d.n
  · simp [hc]
  · by_cases hb : d.bp = d.len
    · simp [h, hb]; omega
    · simp [h, hb, Dec.raise]; omega

/-- A decoder that is not running is left alone by the end-of-pass test. -/
theorem Dec.endPass_of_not_busy (d : Dec) (h : d.status ≠ .busy) : d.endPass = d := by
  simp [Dec.endPass, h]

/-- What a chunk that does not raise does to the counters, and that it leaves the pass inputs and `STATUS` alone. -/
theorem Dec.exec_ok (H : Hash) (i : Instr) (d d' : Dec) (h : d.exec H i = .ok d') :
    d.ready = true ∧ i.violation = none ∧ d'.status = d.status ∧ d'.mem = d.mem ∧ d'.len = d.len ∧ d'.n = d.n ∧
    d'.bp = d.bp + i.length ∧ d.cnt < d'.cnt ∧ d'.cnt ≤ d.n ∧
    ∃ ps, d'.outPixels = d.outPixels ++ ps ∧ d'.cnt = d.cnt + ps.length := by
  cases i with
  | run count =>
    simp only [Dec.exec, Dec.repeatPrev] at h
    rcases Dec.issue_cases d (.run count) _ with ⟨_, hi⟩ | ⟨_, c, _, hi⟩ | ⟨hr, hv, hi⟩ <;> rw [hi] at h
    · cases h
    · cases h
    · split at h
      · cases h
      · rename_i hc
        cases h
        have hr' := (d.ready_iff).1 hr
        have hcount := (run_legal count).1 hv
        refine ⟨hr, hv, ?_⟩
        simp [Instr.length, Instr.kind, kindLength]
        omega
  | rgb r g b | rgba r g b a | index idx | diff dr dg db | luma dg drg dbg =>
    simp only [Dec.exec, Dec.rgb, Dec.rgba, Dec.index, Dec.diff, Dec.luma] at h
    rcases Dec.issue_cases d _ _ with ⟨_, hi⟩ | ⟨_, c, _, hi⟩ | ⟨hr, hv, hi⟩ <;> rw [hi] at h
    · cases h
    · cases h
    · cases h
      have hr' := (d.ready_iff).1 hr
      refine ⟨hr, hv, ?_⟩
      simp [Instr.length, Instr.kind, kindLength]
      omega

/-- The bytes the decoder parses are the first of the remaining ones: a fetch is a decode of them. -/
theorem Dec.fetch_eq_decode (d : Dec) :
    d.fetch = match decode (memoryBytes d.mem d.bp (d.len - d.bp)) with
      | .ok (i, _) => .ok i
      | .error e => .error e := by
  unfold Dec.fetch
  by_cases hl : d.len ≤ d.bp
  · rw [if_pos hl, show d.len - d.bp = 0 by omega]; rfl
  · rw [if_neg hl]
    obtain ⟨k, hk⟩ : ∃ k, d.len - d.bp = k + 1 := ⟨d.len - d.bp - 1, by omega⟩
    rw [hk]
    simp only [memoryBytes]
    generalize hb : memoryRead d.mem d.bp = b0
    by_cases ht : chunkLen b0 ≤ k + 1
    · have hmem : d.memRead d.bp (chunkLen b0) = some (memoryBytes d.mem d.bp (chunkLen b0)) := by
        simp only [Dec.memRead]; rw [if_pos (by omega)]
      rw [hmem]
      obtain ⟨i, hdec, hpar, _⟩ := decode_of_le b0 (memoryBytes d.mem (d.bp + 1) k) (by simpa using ht)
      have htake : (b0 :: memoryBytes d.mem (d.bp + 1) k).take (chunkLen b0) =
          memoryBytes d.mem d.bp (chunkLen b0) := by
        have : b0 :: memoryBytes d.mem (d.bp + 1) k = memoryBytes d.mem d.bp (k + 1) := by
          simp [memoryBytes, hb]
        rw [this, show k + 1 = chunkLen b0 + (k + 1 - chunkLen b0) by omega, memoryBytes_append]
        simp
      rw [hdec, ← htake]
      exact hpar
    · have hmem : d.memRead d.bp (chunkLen b0) = none := by
        simp only [Dec.memRead]; rw [if_neg (by omega)]
      rw [hmem]
      simp [decode, memoryBytes_length]
      rw [if_pos (by omega)]

end Sys2Proof.Machine
end

