-- ==== Sys2Proof/Laws/Encoder.lean ====
section
/-! SUPPORT. What the serialisers and each part of `ENC_STEP` do on operands in range. -/

namespace Sys2Proof.Machine

@[simp] theorem diffOk_iff (d : Delta) : diffOk d = true ↔
    (-2 ≤ d.dr ∧ d.dr ≤ 1) ∧ (-2 ≤ d.dg ∧ d.dg ≤ 1) ∧ (-2 ≤ d.db ∧ d.db ≤ 1) := by
  simp [diffOk, and_assoc]

@[simp] theorem lumaOk_iff (d : Delta) : lumaOk d = true ↔
    (-32 ≤ d.dg ∧ d.dg ≤ 31) ∧ (-8 ≤ d.dr - d.dg ∧ d.dr - d.dg ≤ 7) ∧
      (-8 ≤ d.db - d.dg ∧ d.db - d.dg ≤ 7) := by
  simp only [lumaOk, Bool.and_eq_true, inRange_iff, and_assoc]

/-- A slot number is an integer in [0,63]. -/
theorem toIndex_val (i : Index) : toIndex (i.val : Int) = some i := by
  have := i.isLt
  unfold toIndex
  rw [dif_pos (by omega)]
  rfl

/-- A RUN chunk for a count in range. -/
theorem encRun_ok (count : Nat) (h1 : 1 ≤ count) (h2 : count ≤ 62) :
    encRun count = .ok (chunkBytes (.run count)) := by
  simp [encRun]
  omega

/-- An INDEX chunk for a slot number. -/
theorem encIndex_ok (i : Index) : encIndex (i.val : Int) = .ok (chunkBytes (.index i)) := by
  simp [encIndex, toIndex_val]

/-- The chunk of a pixel that misses the cache, by the first test that passes; none of them raises. -/
theorem missChunk_eq (prev p : Pixel) :
    missChunk prev p = .ok (
      if p.a = prev.a then
        if diffOk (delta p prev) then
          chunkBytes (.diff (delta p prev).dr (delta p prev).dg (delta p prev).db)
        else if lumaOk (delta p prev) then
          chunkBytes (.luma (delta p prev).dg ((delta p prev).dr - (delta p prev).dg)
            ((delta p prev).db - (delta p prev).dg))
        else chunkBytes (.rgb p.r p.g p.b)
      else chunkBytes (.rgba p.r p.g p.b p.a)) := by
  unfold missChunk
  by_cases ha : p.a = prev.a
  · by_cases hd : diffOk (delta p prev) = true
    · simp only [ha, hd, if_true, encDiff]
    · by_cases hl : lumaOk (delta p prev) = true
      · simp only [ha, hd, hl, if_true, encLuma]; rfl
      · simp only [ha, hd, hl, encRgb]; rfl
  · simp only [ha, if_false, encRgba]

/-- A flush of a count in range. -/
theorem Enc.flushRun_ok (e : Enc) (h1 : 1 ≤ e.run) (h2 : e.run ≤ 62) :
    e.flushRun = .ok { e with outBytes := e.outBytes ++ chunkBytes (.run e.run), run := 0 } := by
  simp [Enc.flushRun, encRun_ok e.run h1 h2, Enc.emit]

/-- Step 1: the run grows, or is flushed at 62 or at the last pixel. -/
theorem Enc.extendRun_ok (e : Enc) (last : Bool) (h : e.run < 62) :
    e.extendRun last = .ok (
      if e.run + 1 = 62 ∨ last = true then
        { e with outBytes := e.outBytes ++ chunkBytes (.run (e.run + 1)), run := 0 }
      else { e with run := e.run + 1 }) := by
  unfold Enc.extendRun
  by_cases hf : e.run + 1 = 62 ∨ last = true
  · rw [if_pos hf, if_pos hf, Enc.flushRun_ok _ (by simp) (by simp; omega)]
  · rw [if_neg hf, if_neg hf]

/-- Step 2: an open run is flushed, and no run is open afterwards. -/
theorem Enc.closeRun_ok (e : Enc) (h : e.run < 62) :
    e.closeRun = .ok { e with
      outBytes := e.outBytes ++ (if 0 < e.run then chunkBytes (.run e.run) else [])
      run := 0 } := by
  unfold Enc.closeRun Enc.runOpen
  by_cases h0 : 0 < e.run
  · simp only [h0, decide_true, if_true]
    exact Enc.flushRun_ok e h0 (by omega)
  · have : e.run = 0 := by omega
    simp [this]
    cases e; simp_all

/-- The chunk a differing pixel is coded by. -/
def pixelChunk (H : Hash) (c : Cache) (prev p : Pixel) : List Byte :=
  if cacheHit H c p then chunkBytes (.index (H p))
  else if p.a = prev.a then
    if diffOk (delta p prev) then
      chunkBytes (.diff (delta p prev).dr (delta p prev).dg (delta p prev).db)
    else if lumaOk (delta p prev) then
      chunkBytes (.luma (delta p prev).dg ((delta p prev).dr - (delta p prev).dg)
        ((delta p prev).db - (delta p prev).dg))
    else chunkBytes (.rgb p.r p.g p.b)
  else chunkBytes (.rgba p.r p.g p.b p.a)

/-- Steps 3 to 7: one chunk is emitted, a miss is stored, and the previous pixel advances. -/
theorem Enc.codePixel_ok (H : Hash) (p : Pixel) (e : Enc) :
    e.codePixel H p = .ok { e with
      cache := if cacheHit H e.cache p then e.cache else cacheStore e.cache (H p) p
      outBytes := e.outBytes ++ pixelChunk H e.cache e.prev p
      prev := p } := by
  unfold Enc.codePixel pixelChunk
  by_cases hh : cacheHit H e.cache p = true
  · simp [hh, encIndex_ok, Enc.emit]
  · simp [hh, missChunk_eq, Enc.emit]

/-- Everything `ENC_STEP` can do between steps of a running pass (44_stream_encoder.md R172). -/
theorem Enc.body_ok (H : Hash) (p : Pixel) (last : Bool) (e : Enc) (h : e.run < 62) :
    e.body H p last = .ok (
      if p = e.prev then
        if e.run + 1 = 62 ∨ last = true then
          { e with outBytes := e.outBytes ++ chunkBytes (.run (e.run + 1)), run := 0 }
        else { e with run := e.run + 1 }
      else
        { e with
          cache := if cacheHit H e.cache p then e.cache else cacheStore e.cache (H p) p
          outBytes := e.outBytes ++ (if 0 < e.run then chunkBytes (.run e.run) else []) ++
            pixelChunk H e.cache e.prev p
          run := 0
          prev := p }) := by
  unfold Enc.body
  by_cases hp : p = e.prev
  · rw [if_pos hp, if_pos hp]; exact Enc.extendRun_ok e last h
  · rw [if_neg hp, if_neg hp, Enc.closeRun_ok e h]
    simp only [Enc.codePixel_ok]

/-- `ENC_STEP` of a running pass ends in its body's state, `DONE` after the last pixel. -/
theorem Enc.step_busy (H : Hash) (p : Pixel) (last : Bool) (e e' : Enc) (hs : e.status = .busy)
    (hb : e.body H p last = .ok e') :
    e.step H p last = .ok (if last then { e' with status := .done } else e') := by
  simp [Enc.step, hs, hb]

/-- `ENC_STEP` out of sequence. -/
theorem Enc.step_not_busy (H : Hash) (p : Pixel) (last : Bool) (e : Enc) (hs : e.status ≠ .busy) :
    e.step H p last = .error (.contract .sequence) := by
  simp [Enc.step, hs]

end Sys2Proof.Machine
end

