-- ==== Sys2Proof/Laws/Step.lean ====
section
/-! SUPPORT. What a step can do: the inversion lemmas that invariants and frames are proved from. -/

namespace Sys2Proof.Machine

/-- Channel addition, read as integers modulo 256. -/
theorem add8_toNat (x : Byte) (v : Int) : ((add8 x v).toNat : Int) = (x.toNat + v) % 256 := by
  unfold add8
  simp [BitVec.toNat_add, BitVec.toNat_ofInt]
  omega

/-- When the decoder moves by itself. -/
theorem State.decoderMoves_iff (s : State) :
    s.decoderMoves = true ↔ s.dec.status = .busy ∧ (s.inDecPass = true ∨ s.host = []) := by
  simp [State.decoderMoves, State.decPassRunning]; tauto

/-- When no pass is running that would keep the host waiting. -/
theorem State.passRunning_false_iff (s : State) :
    s.passRunning = false ↔ (s.dec.status = .busy → s.inDecPass = false) ∧ s.enc.canMove = false := by
  simp [State.passRunning, State.decPassRunning]

/-- No pass is running when neither agent moves by itself. -/
theorem State.passRunning_of_still (s : State) (hd : s.decoderMoves = false) (hm : s.enc.canMove = false) :
    s.passRunning = false := by
  simp [State.decoderMoves] at hd
  simp [State.passRunning, hd.1, hm]

/-- When an `ENC_PASS` is running. -/
theorem Enc.canMove_iff (e : Enc) : e.canMove = true ↔ e.status = .busy ∧ e.pixIn ≠ [] := by
  simp [Enc.canMove]

/-- With an operation queued and no pass running, a step performs the oldest one. -/
theorem step_queued (s : State) (op : HostOp) (rest : List HostOp) (h : s.host = op :: rest)
    (hp : s.passRunning = false) : step s = perform exec op { s with host := rest } := by
  have hp := (s.passRunning_false_iff).1 hp
  have hd : s.decoderMoves = false := by
    rw [Bool.eq_false_iff, ne_eq, State.decoderMoves_iff]; simp [h]; exact hp.1
  unfold step turn
  simp only [hd, hp.2, h]
  rfl

/-- A decoder that moves by itself and expects pixels takes a chunk's turn. -/
theorem step_chunk (s : State) (h : s.decoderMoves = true) (hc : s.dec.cnt < s.dec.n) :
    step s = chunkTurn exec s := by
  simp [step, turn, h, decoderTurn, hc]

/-- A decoder that moves by itself and expects no more pixels makes the end-of-pass test. -/
theorem step_pass_end (s : State) (h : s.decoderMoves = true) (hc : ¬ s.dec.cnt < s.dec.n) :
    step s = .next { s with dec := s.dec.endPass } := by
  simp [step, turn, h, decoderTurn, hc]

/-- A running `ENC_PASS` takes its turn when the decoder does not move by itself. -/
theorem step_encoder (s : State) (h : s.decoderMoves = false) (hm : s.enc.canMove = true) :
    step s = s.resolveEnc (s.enc.passStep codecHash) := by
  simp [step, turn, h, hm]

/-- Nothing queued and no agent that can move. -/
theorem step_stuck (s : State) (h : s.decoderMoves = false) (hm : s.enc.canMove = false) (hh : s.host = []) :
    step s = .fault .noAgentCanMove := by
  simp [step, turn, h, hm, hh]

/-- `exec` always gives a next state: the chunk's effect on the decoder, or error entry. -/
theorem exec_next (i : Instr) (s : State) :
    ∃ d, exec i s = .next { s with dec := d } ∧
      ((s.dec.exec codecHash i = .ok d) ∨
        ∃ e, s.dec.exec codecHash i = .error e ∧ d = s.dec.raise e) := by
  rw [exec_eq]; exact State.resolveDec_next _ _

/-- A chunk that does not raise produces the pixels of its kind. -/
theorem Dec.exec_pixels (H : Hash) (i : Instr) (d d' : Dec) (h : d.exec H i = .ok d') :
    d'.cnt = d.cnt + pixelsOf i ∧ d'.outPixels.length = d.outPixels.length + pixelsOf i := by
  have ⟨hr, hv, _⟩ := Dec.exec_ok _ _ _ _ h
  cases i <;>
    simp [Dec.exec, Dec.rgb, Dec.rgba, Dec.index, Dec.diff, Dec.luma, Dec.repeatPrev, Dec.issue, hr, hv] at h
  case run c => split at h <;> cases h; simp [pixelsOf]
  all_goals (subst h; simp [pixelsOf])

/-- A legal chunk issued in sequence raises only when a RUN passes the expected count. -/
theorem Dec.exec_error (H : Hash) (i : Instr) (d : Dec) (e : Err) (hr : d.ready = true) (hv : i.violation = none)
    (h : d.exec H i = .error e) : e = .format .pixelCount := by
  cases i <;>
    simp [Dec.exec, Dec.rgb, Dec.rgba, Dec.index, Dec.diff, Dec.luma, Dec.repeatPrev, Dec.issue, hr, hv] at h
  split at h <;> cases h
  rfl

/-- A fetch that succeeds: the chunk lies inside the stream and is well-formed. -/
theorem Dec.fetch_ok (d : Dec) (i : Instr) (h : d.fetch = .ok i) :
    ∃ rest, decode (remainingBytes d) = .ok (i, rest) ∧
      d.bp + chunkLen (memoryRead d.mem d.bp) ≤ d.len ∧ i.violation = none ∧
      i.length = chunkLen (memoryRead d.mem d.bp) := by
  have h' := h
  rw [Dec.fetch_eq_decode] at h
  unfold Dec.fetch at h'
  split at h'
  · cases h'
  · rename_i hl
    have hbp : d.len - d.bp = (d.len - d.bp - 1) + 1 := by omega
    unfold remainingBytes
    rw [hbp] at h ⊢
    simp only [memoryBytes] at h ⊢
    by_cases hle : chunkLen (memoryRead d.mem d.bp) ≤
        (memoryBytes d.mem (d.bp + 1) (d.len - d.bp - 1)).length + 1
    · obtain ⟨j, h1, h2, h3, h4⟩ := decode_of_le _ _ hle
      rw [h1] at h ⊢
      simp at h; subst h
      simp at hle
      exact ⟨_, rfl, by omega, h3, h4⟩
    · simp at hle
      simp [Dec.memRead] at h'
      rw [if_neg (by omega)] at h'
      cases h'

/-- A fetch that fails does so for length. -/
theorem Dec.fetch_error (d : Dec) (e : Err) (h : d.fetch = .error e) :
    e = .format .streamExhausted ∨ e = .format .truncatedChunk := by
  rw [Dec.fetch_eq_decode] at h
  cases hm : memoryBytes d.mem d.bp (d.len - d.bp) with
  | nil => rw [hm] at h; simp [decode] at h; exact .inl h.symm
  | cons b0 rs =>
    rw [hm] at h
    by_cases hle : chunkLen b0 ≤ rs.length + 1
    · obtain ⟨j, h1, _⟩ := decode_of_le b0 rs hle
      rw [h1] at h; cases h
    · simp only [decode] at h
      rw [if_pos (by simp only [List.length_cons]; omega)] at h
      simp at h; exact .inr h.symm

/-- THE STEP OF A DECODE PASS: one of the three errors of a chunk, with nothing changed but the status; or the effect of the
decoded chunk and the end-of-pass test. -/
theorem chunkTurn_cases (s t : State) (hb : s.dec.status = .busy) (hc : s.dec.cnt < s.dec.n)
    (ht : chunkTurn exec s = .next t) :
    (∃ c, t = { s with dec := s.dec.raise (.format c) } ∧
      (c = .streamExhausted ∨ c = .truncatedChunk ∨ c = .pixelCount)) ∨
    (∃ i rest d, decode (remainingBytes s.dec) = .ok (i, rest) ∧ s.dec.exec codecHash i = .ok d ∧
      t = { s with dec := d.endPass } ∧
      s.dec.bp + chunkLen (memoryRead s.dec.mem s.dec.bp) ≤ s.dec.len ∧
      i.length = chunkLen (memoryRead s.dec.mem s.dec.bp)) := by
  unfold chunkTurn at ht
  cases hf : s.dec.fetch with
  | error e =>
    rw [hf] at ht
    simp [State.resolveDec] at ht
    subst ht
    rcases Dec.fetch_error _ _ hf with rfl | rfl
    · exact .inl ⟨_, rfl, .inl rfl⟩
    · exact .inl ⟨_, rfl, .inr (.inl rfl)⟩
  | ok i =>
    rw [hf] at ht
    obtain ⟨rest, h1, h2, h3, h4⟩ := Dec.fetch_ok _ _ hf
    obtain ⟨d, he, hd⟩ := exec_next i s
    simp only [he] at ht
    simp [thenEndPass] at ht
    rcases hd with hd | ⟨e, hd, hde⟩
    · exact .inr ⟨i, rest, d, h1, hd, ht.symm, h2, h4⟩
    · subst hde
      rw [Dec.endPass_of_not_busy _ (by simp)] at ht
      have := Dec.exec_error codecHash i s.dec e ((s.dec.ready_iff).2 ⟨hb, hc⟩) h3 hd
      subst this
      exact .inl ⟨_, ht.symm, .inr (.inr rfl)⟩

/-- A chunk's turn always gives a next state, in which the encoder and the queue are as before. -/
theorem chunkTurn_next (s : State) : ∃ d, chunkTurn exec s = .next { s with dec := d } := by
  unfold chunkTurn
  cases hf : s.dec.fetch with
  | error e => exact ⟨_, rfl⟩
  | ok i =>
    obtain ⟨d, he, _⟩ := exec_next i s
    simp only [he]
    exact ⟨_, rfl⟩

/-- The end-of-pass test on a running pass raises nothing but left-over bytes. -/
theorem Dec.endPass_fault (d : Dec) (e : Err) (h : d.status = .busy) (h' : d.endPass.status = .fault e) :
    e = .format .trailingBytes := by
  rcases Dec.endPass_cases d h with ⟨_, h2⟩ | ⟨_, _, h2⟩ | ⟨_, _, h2⟩ <;> rw [h2] at h'
  · rw [h] at h'; cases h'
  · cases h'
  · cases h'; rfl

end Sys2Proof.Machine
end

