-- ==== Sys2Proof/Laws/Boundary.lean ====
section
/-! SUPPORT. What the operations a host calls can do: a queued `DEC_STEP`, error entry, the parsers' contract check,
header and file, the row-major list and its rows. -/

namespace Sys2Proof.Machine

/-- A ready decoder's chunk turn is what the remaining bytes decode to: the chunk and the end-of-pass test, or error entry. -/
theorem chunkTurn_decode (s : State) :
    chunkTurn exec s = match decode (remainingBytes s.dec) with
      | .ok (i, _) => thenEndPass (exec i s)
      | .error e => s.resolveDec (.error e) := by
  unfold chunkTurn remainingBytes
  rw [Dec.fetch_eq_decode]
  cases decode (memoryBytes s.dec.mem s.dec.bp (s.dec.len - s.dec.bp)) <;> rfl

/-- A chunk with a bad operand, issued in sequence, is error entry with that operand's contract violation. -/
theorem exec_violation (i : Instr) (s : State) (c : ContractViolation) (hr : s.dec.ready = true)
    (hv : i.violation = some c) : exec i s = s.resolveDec (.error (.contract c)) := by
  rw [exec_eq]
  cases i <;>
    simp [Dec.exec, Dec.rgb, Dec.rgba, Dec.index, Dec.diff, Dec.luma, Dec.repeatPrev, Dec.issue, hr, hv]

/-- Error entry is the decoder in `FAULT` with nothing else changed. -/
theorem resolveDec_error (s : State) (e : Err) : ∃ t, s.resolveDec (.error e) = .next t ∧ decoderFaults s t e :=
  ⟨_, rfl, rfl⟩

/-- A header with fields in range is never a contract violation. -/
theorem buildHeader_fields (f : HeaderFields) :
    buildHeader f.width.val f.height.val f.channels.toNat f.colorspace.val = .ok (headerBytes f.header) := by
  obtain ⟨w, h, c, cs⟩ := f
  cases c <;> simp [buildHeader, headerOf, Header.legal, HeaderFields.header, Channels.toNat] <;> omega

/-- `ENCODE_FILE` with a matching pixel count is header, chunk stream and marker. -/
theorem encodeFile_of_length (H : Hash) (f : HeaderFields) (ps : List Pixel) (body : List Byte)
    (h : ps.length = f.width.val * f.height.val) (hb : encPass H ps = .ok body) :
    encodeFile H f ps = .ok (headerBytes f.header ++ body ++ eosMarker) := by
  simp [encodeFile, h, hb]

/-- The contract check passes exactly the bytes of the kind. -/
theorem checkChunk_none_iff (k : Kind) (bs : List Byte) : checkChunk k bs = none ↔ meetsContract k bs := by
  unfold checkChunk meetsContract
  cases bs with
  | nil => cases k <;> simp [kindLength]
  | cons b t =>
    by_cases hl : (b :: t).length = kindLength k <;> by_cases hk : kind b = k <;> simp_all

/-- What the contract check reports is one of the errors the contract allows. -/
theorem checkChunk_some (k : Kind) (bs : List Byte) (c : ContractViolation) (h : checkChunk k bs = some c) :
    contractError k bs (.contract c) := by
  unfold checkChunk at h
  unfold contractError
  cases bs with
  | nil => cases k <;> simp_all [kindLength]
  | cons b t =>
    by_cases hl : (b :: t).length = kindLength k <;> by_cases hk : kind b = k <;> simp_all
    cases hf : Config.lengthReportedFirst k (b :: t) <;> simp_all

/-- A parser given bytes outside its contract. -/
theorem parsed_of_not_meets {α : Type} (k : Kind) (bs : List Byte) (f : Instr → Raises α)
    (h : ¬ meetsContract k bs) : ∃ e, parsed k bs f = .error e ∧ contractError k bs e := by
  unfold parsed
  cases hc : checkChunk k bs with
  | none => exact absurd ((checkChunk_none_iff k bs).1 hc) h
  | some c => exact ⟨_, rfl, checkChunk_some k bs c hc⟩

/-- A parser given the bytes of its kind. -/
theorem parsed_of_meets {α : Type} (k : Kind) (bs : List Byte) (f : Instr → Raises α)
    (h : meetsContract k bs) : ∃ i, i.kind = k ∧ i.violation = none ∧ parseChunk bs = .ok i ∧ parsed k bs f = f i := by
  have hc := (checkChunk_none_iff k bs).2 h
  obtain ⟨hl, b0, payload, rfl, hk⟩ := h
  obtain ⟨i, hp, hv, hi, _⟩ := parseChunk_ok b0 payload (by rw [chunkLen_eq_kindLength, hk, ← hl]; rfl)
  refine ⟨i, hi.trans hk, hv, hp, ?_⟩
  unfold parsed
  simp only [hc, hp]

/-- Rows of one width, one after the other: how long the list is and where each element stands. -/
theorem flatten_row_major {α : Type} (rows : List (List α)) (width : Nat) (h : ∀ r ∈ rows, r.length = width) :
    rows.flatten.length = rows.length * width ∧
    ∀ row column, column < width →
      rows.flatten[row * width + column]? = (rows[row]?).bind fun r => r[column]? := by
  induction rows with
  | nil => simp
  | cons r rs ih =>
    have hr := h r (by simp)
    obtain ⟨h1, h2⟩ := ih fun x hx => h x (by simp [hx])
    refine ⟨by simp only [List.flatten_cons, List.length_append, List.length_cons, h1, hr]; ring, ?_⟩
    intro row column hc
    cases row with
    | zero => simp [List.getElem?_append, hr, hc]
    | succ row =>
      have : (row + 1) * width + column = r.length + (row * width + column) := by rw [hr]; ring
      simp only [List.flatten_cons, this, List.getElem?_append_right (Nat.le_add_right _ _),
        Nat.add_sub_cancel_left]
      rw [h2 row column hc]
      simp

/-- A list of `height * width` elements cut into rows: as many rows as that, each of the width, one after the other the list. -/
theorem rowsOfPixels_spec (width height : Nat) (ps : List Pixel) (h : ps.length = height * width) :
    (rowsOfPixels width height ps).length = height ∧ (∀ r ∈ rowsOfPixels width height ps, r.length = width) ∧
    (rowsOfPixels width height ps).flatten = ps := by
  induction height generalizing ps with
  | zero => simp at h; simp [rowsOfPixels, h]
  | succ k ih =>
    have hk : ps.length = k * width + width := by rw [h]; ring
    obtain ⟨h1, h2, h3⟩ := ih (ps.drop width) (by simp; omega)
    refine ⟨by simp [rowsOfPixels, h1], fun r hr => ?_, by simp [rowsOfPixels, h3]⟩
    rcases List.mem_cons.1 hr with rfl | hr
    · simp; omega
    · exact h2 r hr

/-- Cutting rows of one width, one after the other, gives them back. -/
theorem rowsOfPixels_flatten (width : Nat) (rows : List (List Pixel)) (h : ∀ r ∈ rows, r.length = width) :
    rowsOfPixels width rows.length rows.flatten = rows := by
  induction rows with
  | nil => rfl
  | cons r rs ih =>
    have hr := h r (by simp)
    simp [rowsOfPixels, ← hr]
    rw [hr]
    exact ih fun x hx => h x (by simp [hx])

/-- The pixel at a row and column of a list that is rows of one width, one after the other; none beyond the width. -/
theorem pixelAt_flatten (width : Nat) (rows : List (List Pixel)) (h : ∀ r ∈ rows, r.length = width)
    (row column : Nat) : pixelAt width rows.flatten row column = (rows[row]?).bind fun r => r[column]? := by
  unfold pixelAt
  split
  · rename_i hc
    exact (flatten_row_major rows width h).2 row column hc
  · rename_i hc
    cases hr : rows[row]? with
    | none => rfl
    | some r =>
      have := h r (List.mem_of_getElem? hr)
      simp
      omega

end Sys2Proof.Machine
end

