-- ==== Sys2Proof/Laws/Moves.lean ====
section
/-! SUPPORT. One inversion of `step`: how each agent can move, and that a chunk keeps the cache sound. -/

namespace Sys2Proof.Machine

/-- The ways a step can change the decoder. -/
inductive DecMove (d : Dec) : Dec → Prop
  | same : DecMove d d
  | start (inp : List Byte) (n : Nat) : DecMove d (decStart inp n)
  | startPass (inp : List Byte) (n : Nat) : DecMove d (decStart inp n).endPass
  | raise (e : Err) : streamError e = true → (d.status ≠ .busy → e = .contract .sequence) → DecMove d (d.raise e)
  | chunk (i : Instr) (d' : Dec) : d.exec codecHash i = .ok d' → d.bp + i.length ≤ d.len → DecMove d d'.endPass
  | passEnd : d.status = .busy → ¬ d.cnt < d.n → DecMove d d.endPass
  | collect : DecMove d { d with status := d.status.collect }

/-- The ways a step can change the encoder. -/
inductive EncMove (e : Enc) : Enc → Prop
  | start : EncMove e encStart
  | startPass (ps : List Pixel) : EncMove e (encPassStart ps)
  | step (p : Pixel) (last : Bool) (e' : Enc) : e.step codecHash p last = .ok e' → EncMove e e'
  | passStep (p : Pixel) (last : Bool) (e' : Enc) (rest : List Pixel) :
    e.step codecHash p last = .ok e' → EncMove e { e' with pixIn := rest }
  | raise (err : Err) (p : Pixel) (last : Bool) : e.step codecHash p last = .error err → EncMove e (e.raise err)
  | collect : EncMove e { e with status := e.status.collect }

/-- With `MAX_PIXELS` unbounded a decoder START is never refused. -/
theorem startDecoder_eq (s : State) (n : Nat) (d : Dec) (byPass : Bool) :
    startDecoder s n d byPass = .next { s with dec := d, inDecPass := byPass } := rfl

/-- One turn of a running `ENC_PASS`: the next pixel of `PIX_IN`, or error entry. -/
theorem passStep_move (e : Enc) (hm : e.canMove = true) :
    (∃ e', e.passStep codecHash = .ok e' ∧ EncMove e e') ∨
    (∃ err, e.passStep codecHash = .error err ∧ EncMove e (e.raise err)) := by
  unfold Enc.passStep
  cases hp : e.pixIn with
  | nil => simp [Enc.canMove, hp] at hm
  | cons p rest =>
    cases hs : e.step codecHash p rest.isEmpty with
    | ok e' => exact .inl ⟨{ e' with pixIn := rest }, by simp [hs], .passStep p _ e' rest hs⟩
    | error err => exact .inr ⟨err, by simp [hs], .raise err p _ hs⟩

/-- What a host operation does: it moves one agent, leaves the other alone and the rest of the queue standing. -/
theorem perform_moves (op : HostOp) (s t : State) (h : perform exec op s = .next t) :
    t.host = s.host ∧
    ((DecMove s.dec t.dec ∧ t.enc = s.enc) ∨ (EncMove s.enc t.enc ∧ t.dec = s.dec ∧ t.inDecPass = s.inDecPass)) := by
  cases op <;> simp only [perform] at h
  case encStart => cases h; exact ⟨rfl, .inr ⟨.start, rfl, rfl⟩⟩
  case encStep p last =>
    cases hs : s.enc.step codecHash p last with
    | ok e' => simp only [hs] at h; cases h; exact ⟨rfl, .inr ⟨.step p last e' hs, rfl, rfl⟩⟩
    | error e' => simp only [hs] at h; cases h; exact ⟨rfl, .inr ⟨.raise e' p _ hs, rfl, rfl⟩⟩
  case encPass => cases h; exact ⟨rfl, .inr ⟨.startPass _, rfl, rfl⟩⟩
  case encCollect => cases h; exact ⟨rfl, .inr ⟨.collect, rfl, rfl⟩⟩
  case decStart => rw [startDecoder_eq] at h; cases h; exact ⟨rfl, .inl ⟨.start _ _, rfl⟩⟩
  case decPass => rw [startDecoder_eq] at h; cases h; exact ⟨rfl, .inl ⟨.startPass _ _, rfl⟩⟩
  case decCollect => cases h; exact ⟨rfl, .inl ⟨.collect, rfl⟩⟩
  case decStep =>
    split at h
    · rename_i hr
      have hr := (Dec.ready_iff _).1 hr
      rcases chunkTurn_cases s t hr.1 hr.2 h with ⟨c, rfl, hcc⟩ | ⟨i, rest, d, _, h2, rfl, h4, h5⟩
      · refine ⟨rfl, .inl ⟨.raise _ ?_ (fun h => absurd hr.1 h), rfl⟩⟩
        rcases hcc with rfl | rfl | rfl <;> rfl
      · exact ⟨rfl, .inl ⟨.chunk i d h2 (by rw [h5]; exact h4), rfl⟩⟩
    · cases h
      exact ⟨rfl, .inl ⟨.raise _ rfl (fun _ => rfl), rfl⟩⟩

/-- A chunk's turn moves the decoder and leaves the encoder alone. -/
theorem chunkTurn_move (s t : State) (hb : s.dec.status = .busy) (hc : s.dec.cnt < s.dec.n)
    (h : chunkTurn exec s = .next t) : DecMove s.dec t.dec ∧ t.enc = s.enc := by
  rcases chunkTurn_cases s t hb hc h with ⟨c, rfl, hcc⟩ | ⟨i, rest, d, h1, h2, rfl, h4, h5⟩
  · refine ⟨.raise _ ?_ (fun h => absurd hb h), rfl⟩
    rcases hcc with rfl | rfl | rfl <;> rfl
  · exact ⟨.chunk i d h2 (by rw [h5]; exact h4), rfl⟩

/-- A decoder that moves by itself leaves the encoder and the host's side alone. -/
theorem step_decoder_moves (s t : State) (hd : s.decoderMoves = true) (h : step s = .next t) :
    DecMove s.dec t.dec ∧ t.enc = s.enc ∧ t.host = s.host ∧ t.inDecPass = s.inDecPass := by
  have hb := ((s.decoderMoves_iff).1 hd).1
  by_cases hc : s.dec.cnt < s.dec.n
  · rw [step_chunk s hd hc] at h
    have hm := chunkTurn_move s t hb hc h
    obtain ⟨d, hd'⟩ := chunkTurn_next s
    rw [hd'] at h
    cases h
    exact ⟨hm.1, rfl, rfl, rfl⟩
  · rw [step_pass_end s hd hc] at h
    cases h
    exact ⟨.passEnd hb hc, rfl, rfl, rfl⟩

/-- EVERYTHING A STEP CAN DO: it moves one agent and leaves the other alone, and takes a host operation off the queue only
while no pass is running (60_exceptions.md R214). -/
theorem step_moves (s t : State) (h : step s = .next t) :
    ((DecMove s.dec t.dec ∧ t.enc = s.enc) ∨ (EncMove s.enc t.enc ∧ t.dec = s.dec)) ∧
    ((t.host = s.host ∧ t.inDecPass = s.inDecPass) ∨
      ∃ op rest, s.host = op :: rest ∧ t.host = rest ∧ s.passRunning = false ∧
        perform exec op { s with host := rest } = .next t) := by
  cases hd : s.decoderMoves with
  | true =>
    have := step_decoder_moves s t hd h
    exact ⟨.inl ⟨this.1, this.2.1⟩, .inl this.2.2⟩
  | false =>
    cases hm : s.enc.canMove with
    | true =>
      rw [step_encoder s hd hm] at h
      rcases passStep_move s.enc hm with ⟨e', he, hmv⟩ | ⟨err, he, hmv⟩ <;>
        (rw [he] at h; cases h; exact ⟨.inr ⟨hmv, rfl⟩, .inl ⟨rfl, rfl⟩⟩)
    | false =>
      cases hh : s.host with
      | nil => rw [step_stuck s hd hm hh] at h; cases h
      | cons op rest =>
        have hp := s.passRunning_of_still hd hm
        rw [step_queued s op rest hh hp] at h
        have hv := perform_moves op { s with host := rest } t h
        exact ⟨hv.2.imp id (fun x => ⟨x.1, x.2.1⟩), .inr ⟨op, rest, rfl, hv.1, hp, h⟩⟩

/-- The cache of a stream start is sound. -/
theorem cacheInv_zero (H : Hash) : cacheInv H (Vector.replicate 64 Config.zeroPixel) := by
  intro i; left; simp

/-- Storing a pixel in its own hash slot keeps a cache sound. -/
theorem cacheInv_store (H : Hash) (c : Cache) (p : Pixel) (h : cacheInv H c) :
    cacheInv H (cacheStore c (H p) p) := by
  intro i
  simp
  split
  · rename_i hi; right; exact hi.symm
  · exact h i

/-- A chunk keeps the decoder's cache sound. -/
theorem Dec.exec_cacheInv (H : Hash) (i : Instr) (d d' : Dec) (h : d.exec H i = .ok d')
    (hc : cacheInv H d.cache) : cacheInv H d'.cache := by
  have ⟨hr, hv, _⟩ := Dec.exec_ok _ _ _ _ h
  cases i <;>
    simp [Dec.exec, Dec.rgb, Dec.rgba, Dec.index, Dec.diff, Dec.luma, Dec.repeatPrev, Dec.issue, hr, hv] at h
  case run c => split at h <;> cases h; simpa using hc
  case index => subst h; simpa using hc
  all_goals (subst h; simp; exact cacheInv_store _ _ _ hc)

end Sys2Proof.Machine
end

