-- ==== Sys2Proof/Laws/PerInstr.lean ====
section
/-! SUPPORT. Per instruction: its bytes begin with a lead byte of its own kind that asks for exactly as many bytes. -/

namespace Sys2Proof.Laws.LeadByte

/-- A well-formed chunk's lead byte selects its kind and its length (30_encoding.md R80, R83). -/
def Statement (i : Instr) : Prop :=
  i.wellFormed = true →
    ∃ b0 payload, chunkBytes i = b0 :: payload ∧ kind b0 = i.kind ∧ payload.length + 1 = chunkLen b0

theorem rgb (r g b : Byte) : Statement (.rgb r g b) := fun _ =>
  ⟨tagRgb, [r, g, b], rfl, rfl, rfl⟩

theorem rgba (r g b a : Byte) : Statement (.rgba r g b a) := fun _ =>
  ⟨tagRgba, [r, g, b, a], rfl, rfl, rfl⟩

theorem index (idx : Index) : Statement (.index idx) := fun _ => by
  refine ⟨byteOf idx.val, [], rfl, ?_, ?_⟩ <;> revert idx <;> decide

theorem diff (dr dg db : Int) : Statement (.diff dr dg db) := fun h => by
  have hv := (diff_legal dr dg db).1 ((wellFormed_iff _).1 h)
  refine ⟨_, [], rfl, ?_, ?_⟩ <;>
    (obtain ⟨⟨h1, h2⟩, ⟨h3, h4⟩, h5, h6⟩ := hv; interval_cases dr <;> interval_cases dg <;> interval_cases db <;> rfl)

theorem luma (dg drg dbg : Int) : Statement (.luma dg drg dbg) := fun h => by
  have hv := ((luma_legal dg drg dbg).1 ((wellFormed_iff _).1 h)).1
  refine ⟨_, [_], rfl, ?_, ?_⟩ <;> (obtain ⟨h1, h2⟩ := hv; interval_cases dg <;> rfl)

theorem run (count : Nat) : Statement (.run count) := fun h => by
  have hv := (run_legal count).1 ((wellFormed_iff _).1 h)
  refine ⟨_, [], rfl, ?_, ?_⟩ <;> (obtain ⟨h1, h2⟩ := hv; interval_cases count <;> rfl)

end Sys2Proof.Laws.LeadByte
end

