-- ==== Sys2Proof/Tests/Slice0.lean ====
section
/-! SUPPORT. Tests. Every expected value comes from spec/95_test_vectors.md (the vector is named) or is computed by hand from
the cited rule. The second half holds, for every statement with hypotheses, a witness that meets them. -/

namespace Sys2Proof.Tests

open Sys2Proof Sys2Proof.Machine

/-! Helpers. -/

/-- The next state, if there is one. -/
def nextState : Host.Outcome State Fault Refusal → Option State
  | .next s => some s
  | .fault _ => none
  | .refused _ => none

/-- Both agents right after their START, the decoder on a stream. -/
def onStream (inp : List Byte) (n : Nat) : State := { State.reset with dec := decStart inp n }

/-- The decoder of program B (95_test_vectors.md) before its INDEX(16): previous pixel and slot 16 as there. -/
def midStream : State :=
  { State.reset with
    dec := { decStart [0x10, 0x7F, 0x9F, 0xBA, 0xC1] 9 with
      prev := ⟨131, 62, 34, 16⟩
      cache := cacheStore (Vector.replicate 64 Config.zeroPixel) 16 ⟨128, 64, 32, 16⟩ } }

/-- The host hands the encoder one pixel, with a previous pixel, a run and one stored pixel. -/
def onPixel (prev : Pixel) (run : Nat) (stored p : Pixel) (last : Bool) : State :=
  { State.reset with
    enc := { encStart with
      prev := prev
      run := run
      cache := cacheStore (Vector.replicate 64 Config.zeroPixel) (codecHash stored) stored }
    host := [.encStep p last] }

/-- What a test reads of the decoder after a step. -/
def decoderAfter (s : State) : Option (Status × Pixel × Nat × Nat × List Pixel) :=
  (nextState (step s)).map fun t => (t.dec.status, t.dec.prev, t.dec.bp, t.dec.cnt, t.dec.outPixels)

/-- What a test reads of a decoder that raised: not its output (45_stream_decoder.md R204). -/
def decoderFaultAfter (s : State) : Option (Status × Pixel × Nat × Nat) :=
  (nextState (step s)).map fun t => (t.dec.status, t.dec.prev, t.dec.bp, t.dec.cnt)

/-- What a test reads of the encoder after a step. -/
def encoderAfter (s : State) : Option (Status × Pixel × Nat × List Byte) :=
  (nextState (step s)).map fun t => (t.enc.status, t.enc.prev, t.enc.run, t.enc.outBytes)

/-- A slot of the decoder's cache after a step. -/
def slotAfter (s : State) (i : Index) : Option Pixel := (nextState (step s)).map fun t => cacheLookup t.dec.cache i

/-! Well-formedness: each check refuses an operand just outside its range (10_state.md R33). -/

theorem test_wf_accepts_bounds :
    (Instr.diff (-2) 1 (-2)).wellFormed ∧ (Instr.luma (-32) (-8) 7).wellFormed ∧
    (Instr.luma 31 7 (-8)).wellFormed ∧ (Instr.run 1).wellFormed ∧ (Instr.run 62).wellFormed ∧
    (Instr.rgb 0 0 0).wellFormed ∧ (Instr.rgba 255 255 255 255).wellFormed ∧ (Instr.index 63).wellFormed := by decide
theorem test_wf_refuses_diff_red : (Instr.diff 2 0 0).violation = some .diffRange ∧
    (Instr.diff (-3) 0 0).violation = some .diffRange := by decide
theorem test_wf_refuses_diff_green : (Instr.diff 0 2 0).violation = some .diffRange ∧
    (Instr.diff 0 (-3) 0).violation = some .diffRange := by decide
theorem test_wf_refuses_diff_blue : (Instr.diff 0 0 2).violation = some .diffRange ∧
    (Instr.diff 0 0 (-3)).violation = some .diffRange := by decide
theorem test_wf_refuses_luma_green : (Instr.luma 32 0 0).violation = some .lumaRange ∧
    (Instr.luma (-33) 0 0).violation = some .lumaRange := by decide
theorem test_wf_refuses_luma_red : (Instr.luma 0 8 0).violation = some .lumaRange ∧
    (Instr.luma 0 (-9) 0).violation = some .lumaRange := by decide
theorem test_wf_refuses_luma_blue : (Instr.luma 0 0 8).violation = some .lumaRange ∧
    (Instr.luma 0 0 (-9)).violation = some .lumaRange := by decide
theorem test_wf_refuses_run : (Instr.run 0).violation = some .runRange ∧
    (Instr.run 63).violation = some .runRange := by decide

/-! Decoding: words written bit by bit from 30_encoding.md R72 to R78. -/

theorem test_decode_rgb : decode [0b11111110, 0b01100100, 0b11001000, 0b00110010, 0b10101010] =
    .ok (.rgb 100 200 50, [0b10101010]) := by decide
theorem test_decode_rgba : decode [0b11111111, 0b10000000, 0b01000000, 0b00100000, 0b00010000] =
    .ok (.rgba 128 64 32 16, []) := by decide
theorem test_decode_index : decode [0b00_001011] = .ok (.index 11, []) := by decide
theorem test_decode_diff : decode [0b01_11_01_00] = .ok (.diff 1 (-1) (-2), []) := by decide
theorem test_decode_luma : decode [0b10_011111, 0b1011_1010] = .ok (.luma (-1) 3 2, []) := by decide
theorem test_decode_run : decode [0b11_111101] = .ok (.run 62, []) ∧ decode [0b11_000000] = .ok (.run 1, []) := by decide
/-- V82, V83: what is too short, and what is empty (V80). -/
theorem test_decode_short : decode [0xAA] = .error (.format .truncatedChunk) ∧
    decode [0xFE, 1, 2] = .error (.format .truncatedChunk) ∧
    decode [] = .error (.format .streamExhausted) := by decide
/-- V35, V40, V50: the encoder's bytes. -/
theorem test_encode : encode (.diff 1 (-2) 0) = .ok [0x72] ∧ encode (.luma 0 7 (-8)) = .ok [0xA0, 0xF0] ∧
    encode (.run 61) = .ok [0xFC] ∧ encode (.index 63) = .ok [0x3F] ∧
    encode (.rgb 100 200 50) = .ok [0xFE, 0x64, 0xC8, 0x32] ∧
    encode (.rgba 100 200 50 128) = .ok [0xFF, 0x64, 0xC8, 0x32, 0x80] := by decide
/-- Program A: the chunk stream in the syntax of 30_encoding.md R86. -/
theorem test_text :
    (disassemble 21 [0xC1, 0xFF, 0x80, 0x40, 0x20, 0x10, 0xC0, 0x77, 0xA7, 0xCD, 0x10, 0xFF, 0, 0, 0, 0xFF,
      0xFE, 0xC8, 0x0A, 0x5A, 0x15]).map (List.map Instr.text) =
    .ok ["RUN(2)", "RGBA(128,64,32,16)", "RUN(1)", "DIFF(1,-1,1)", "LUMA(7,4,5)", "INDEX(16)", "RGBA(0,0,0,255)",
      "RGB(200,10,90)", "INDEX(21)"] := by decide
/-- The bits of the opcode table: the lead byte is bits 7 to 0. -/
theorem test_table_words : decodeTableWord 32 0x32C864FE = some (.rgb 100 200 50) ∧
    decodeTableWord 40 0x80_32C864FF = some (.rgba 100 200 50 128) ∧
    decodeTableWord 8 0x0B = some (.index 11) ∧ decodeTableWord 8 0x74 = some (.diff 1 (-1) (-2)) ∧
    decodeTableWord 16 0xBA9F = some (.luma (-1) 3 2) ∧ decodeTableWord 8 0xFD = some (.run 62) := by decide

/-! One step from reset with one instruction placed. -/

/-- R151: alpha of the start pixel. R193: four bytes. -/
theorem test_fetch_rgb : decoderAfter (State.reset.withFetchWord 32 0x32C864FE) =
    some (.busy, ⟨100, 200, 50, 255⟩, 4, 1, [⟨100, 200, 50, 255⟩]) := by decide
theorem test_fetch_rgba : decoderAfter (State.reset.withFetchWord 40 0x80_32C864FF) =
    some (.busy, ⟨100, 200, 50, 128⟩, 5, 1, [⟨100, 200, 50, 128⟩]) := by decide
/-- V48: a never-written slot. -/
theorem test_fetch_index : decoderAfter (State.reset.withFetchWord 8 0x07) =
    some (.busy, ⟨0, 0, 0, 0⟩, 1, 1, [⟨0, 0, 0, 0⟩]) := by decide
/-- V30: each channel wraps. -/
theorem test_fetch_diff : decoderAfter (State.reset.withFetchWord 8 0x40) =
    some (.busy, ⟨254, 254, 254, 255⟩, 1, 1, [⟨254, 254, 254, 255⟩]) := by decide
/-- V38. -/
theorem test_fetch_luma : decoderAfter (State.reset.withFetchWord 16 0x0080) =
    some (.busy, ⟨216, 224, 216, 255⟩, 2, 1, [⟨216, 224, 216, 255⟩]) := by decide
/-- V71, and V75: a run leaves slot 53 alone. -/
theorem test_fetch_run : decoderAfter (State.reset.withFetchWord 8 0xC2) =
    some (.busy, ⟨0, 0, 0, 255⟩, 1, 3, List.replicate 3 ⟨0, 0, 0, 255⟩) ∧
    slotAfter (State.reset.withFetchWord 8 0xC2) 53 = some ⟨0, 0, 0, 0⟩ := by decide

/-! One step on a state of the spec's programs. -/

/-- V46: RGBA stores in slot 50. -/
theorem test_rgba_stores : slotAfter (onStream [0xFF, 100, 200, 50, 128] 1) 50 = some ⟨100, 200, 50, 128⟩ := by decide
/-- V49: RGB stores in slot 39. -/
theorem test_rgb_stores : slotAfter (onStream [0xFE, 100, 200, 50] 1) 39 = some ⟨100, 200, 50, 255⟩ := by decide
/-- Program B: INDEX reads slot 16 and `PREV` follows. -/
theorem test_index_reads : decoderAfter midStream =
    some (.busy, ⟨128, 64, 32, 16⟩, 1, 1, [⟨128, 64, 32, 16⟩]) := by decide
/-- V72: a zero DIFF stores the start pixel in slot 53, and the pass is done. -/
theorem test_diff_stores : slotAfter (onStream [0x6A] 1) 53 = some ⟨0, 0, 0, 255⟩ ∧
    decoderAfter (onStream [0x6A] 1) = some (.done, ⟨0, 0, 0, 255⟩, 1, 1, [⟨0, 0, 0, 255⟩]) := by decide
/-- V39: each channel wraps, alpha kept. -/
theorem test_luma_wraps : decLuma ⟨255, 255, 255, 9⟩ [0xBF, 0xFF] = .ok ⟨37, 30, 37, 9⟩ := by decide
/-- V85: a run past the expected count produces nothing. -/
theorem test_run_too_long : decoderFaultAfter (onStream [0xC2] 2) =
    some (.fault (.format .pixelCount), ⟨0, 0, 0, 255⟩, 0, 0) := by decide
/-- V80. -/
theorem test_stream_exhausted : decoderFaultAfter (onStream [] 1) =
    some (.fault (.format .streamExhausted), ⟨0, 0, 0, 255⟩, 0, 0) := by decide
/-- V82. -/
theorem test_truncated_chunk : decoderFaultAfter (onStream [0xAA] 1) =
    some (.fault (.format .truncatedChunk), ⟨0, 0, 0, 255⟩, 0, 0) := by decide
/-- V87. -/
theorem test_trailing_bytes : decoderFaultAfter (onStream [0x7F, 0x7F] 1) =
    some (.fault (.format .trailingBytes), ⟨1, 1, 1, 255⟩, 1, 1) := by decide
/-- V88: no step runs. -/
theorem test_trailing_without_a_step : decoderFaultAfter { State.reset with host := [.decPass [0x00] 0] } =
    some (.fault (.format .trailingBytes), ⟨0, 0, 0, 255⟩, 0, 0) := by decide
/-- V94: `DEC_STEP` of a pass that is done. -/
theorem test_step_out_of_sequence : decoderFaultAfter
    { State.reset with dec := { decStart [] 0 with status := .done }, host := [.decStep] } =
    some (.fault (.contract .sequence), ⟨0, 0, 0, 255⟩, 0, 0) := by decide
/-- R214: a START queued behind a running `DEC_PASS` waits, and the pass takes its next chunk (program C). -/
theorem test_pass_is_not_redirected : decoderAfter
    { onStream [0x7F, 0xC1, 0xFE, 0x01] 4 with host := [.decStart [] 0], inDecPass := true } =
    some (.busy, ⟨1, 1, 1, 255⟩, 1, 1, [⟨1, 1, 1, 255⟩]) := by decide
/-- R223: a START queued behind a pass that `DEC_START` began abandons it. -/
theorem test_stepped_pass_is_abandoned : decoderAfter
    { onStream [0x7F, 0xC1, 0xFE, 0x01] 4 with host := [.decStart [0x00] 1] } =
    some (.busy, ⟨0, 0, 0, 255⟩, 0, 0, []) := by decide
/-- R214: a pixel queued behind a running `ENC_PASS` waits, and the pass codes its own next pixel (V31). -/
theorem test_encode_pass_is_not_redirected : encoderAfter
    { State.reset with
      enc := encPassStart [⟨1, 1, 1, 255⟩, ⟨1, 1, 1, 255⟩]
      dec := { Dec.reset with status := .done }
      host := [.encStep ⟨9, 9, 9, 9⟩ true] } =
    some (.busy, ⟨1, 1, 1, 255⟩, 0, [0x7F]) := by decide
/-- Program A, S6, V73: whole passes. -/
theorem test_decode_passes :
    decPass codecHash [0xAA, 0x88, 0xC0, 0x9F, 0xBA] 3 = .ok [⟨10, 10, 10, 255⟩, ⟨10, 10, 10, 255⟩, ⟨12, 9, 11, 255⟩] ∧
    decPass codecHash [0x07, 0xC0] 2 = .ok [⟨0, 0, 0, 0⟩, ⟨0, 0, 0, 0⟩] ∧
    decPass codecHash [0x7F, 0xC1, 0xFE, 1] 4 = .error (.format .truncatedChunk) := by decide

/-! Parsers, serialisers, deltas, cache (V9 to V51, V90 to V92). -/

theorem test_parsers : decRgb ⟨1, 2, 3, 9⟩ [0xFE, 0x64, 0xC8, 0x32] = .ok ⟨100, 200, 50, 9⟩ ∧
    decDiff ⟨255, 255, 255, 7⟩ [0x7F] = .ok ⟨0, 0, 0, 7⟩ ∧ decRun [0xFD] = .ok 62 := by decide
theorem test_parser_contracts : decDiff ⟨0, 0, 0, 0⟩ [0x0B] = .error (.contract .tagMismatch) ∧
    decRun [0xFE] = .error (.contract .tagMismatch) ∧
    decLuma ⟨0, 0, 0, 0⟩ [0xAA] = .error (.contract .chunkLength) := by decide
theorem test_serialisers : encDiff ⟨-2, 1, -2⟩ = .ok [0x4C] ∧ encLuma ⟨2, -1, 1⟩ = .ok [0x9F, 0xBA] ∧
    encLuma ⟨-25, -32, -39⟩ = .ok [0x80, 0xF1] ∧ encRun 62 = .ok [0xFD] := by decide
theorem test_serialiser_contracts : encDiff ⟨2, 0, 0⟩ = .error (.contract .diffRange) ∧
    encLuma ⟨-24, -32, -25⟩ = .error (.contract .lumaRange) ∧ encRun 63 = .error (.contract .runRange) ∧
    encIndex 64 = .error (.contract .indexRange) := by decide
theorem test_delta : delta ⟨1, 0, 255, 9⟩ ⟨255, 1, 0, 9⟩ = ⟨2, -1, -1⟩ ∧
    delta ⟨0, 0, 0, 0⟩ ⟨128, 127, 129, 0⟩ = ⟨-128, -127, 127⟩ ∧
    delta ⟨200, 100, 50, 1⟩ ⟨100, 200, 250, 1⟩ = ⟨100, -100, 56⟩ := by decide
/-- V10 to V14. -/
theorem test_hash : codecHash ⟨0, 0, 0, 255⟩ = 53 ∧ codecHash ⟨12, 9, 11, 255⟩ = 19 ∧
    codecHash ⟨255, 255, 255, 255⟩ = 38 ∧ codecHash ⟨1, 0, 0, 0⟩ = 3 ∧ codecHash ⟨0, 1, 0, 0⟩ = 5 ∧
    codecHash ⟨0, 0, 1, 0⟩ = 7 ∧ codecHash ⟨0, 0, 0, 1⟩ = 11 := by decide
/-- V18, V19. -/
theorem test_cache : cacheHit codecHash Enc.reset.cache ⟨0, 0, 0, 0⟩ = true ∧
    cacheHit codecHash Enc.reset.cache ⟨64, 0, 0, 0⟩ = false ∧
    cacheLookupAt Enc.reset.cache 64 = .error (.contract .cacheIndex) := by decide

/-! The encoder (S1, S6, V52, V63, S5, V44, Program A). -/

theorem test_encode_passes :
    encPass codecHash [⟨10, 10, 10, 255⟩, ⟨10, 10, 10, 255⟩, ⟨12, 9, 11, 255⟩] = .ok [0xAA, 0x88, 0xC0, 0x9F, 0xBA] ∧
    encPass codecHash [⟨0, 0, 0, 0⟩, ⟨0, 0, 0, 0⟩] = .ok [0x00, 0xC0] ∧
    encPass codecHash [] = .ok [] := by decide
/-- V44: a first occurrence coded as a run is not cached. -/
theorem test_encode_cache_exception :
    encPass codecHash [⟨0, 0, 0, 255⟩, ⟨5, 5, 5, 255⟩, ⟨0, 0, 0, 255⟩, ⟨5, 5, 5, 255⟩, ⟨0, 0, 0, 255⟩] =
      .ok [0xC0, 0xA5, 0x88, 0x9B, 0x88, 0x00, 0x35] := by decide
/-- S1: the cap flushes the 62nd pixel of a run at once. -/
theorem test_encode_run_cap : encoderAfter (onPixel ⟨0, 0, 0, 255⟩ 61 ⟨0, 0, 0, 0⟩ ⟨0, 0, 0, 255⟩ false) =
    some (.busy, ⟨0, 0, 0, 255⟩, 0, [0xFD]) := by decide
/-- S6, last pixel: the run is flushed first. -/
theorem test_encode_flush_then_luma :
    encoderAfter (onPixel ⟨10, 10, 10, 255⟩ 1 ⟨10, 10, 10, 255⟩ ⟨12, 9, 11, 255⟩ true) =
      some (.done, ⟨12, 9, 11, 255⟩, 0, [0xC0, 0x9F, 0xBA]) := by decide
/-- S5: INDEX wins over a changed alpha. -/
theorem test_encode_index_first :
    encoderAfter (onPixel ⟨11, 10, 10, 254⟩ 0 ⟨10, 10, 10, 255⟩ ⟨10, 10, 10, 255⟩ false) =
      some (.busy, ⟨10, 10, 10, 255⟩, 0, [0x0B]) := by decide
/-- V41. -/
theorem test_encode_rgb : encoderAfter (onPixel ⟨0, 0, 0, 255⟩ 0 ⟨0, 0, 0, 0⟩ ⟨32, 32, 32, 255⟩ false) =
    some (.busy, ⟨32, 32, 32, 255⟩, 0, [0xFE, 0x20, 0x20, 0x20]) := by decide
/-- V46. -/
theorem test_encode_rgba : encoderAfter (onPixel ⟨0, 0, 0, 255⟩ 0 ⟨0, 0, 0, 0⟩ ⟨100, 200, 50, 128⟩ false) =
    some (.busy, ⟨100, 200, 50, 128⟩, 0, [0xFF, 0x64, 0xC8, 0x32, 0x80]) := by decide
/-- V33: a delta of -3 is LUMA, not DIFF. -/
theorem test_encode_luma : encoderAfter (onPixel ⟨0, 0, 0, 255⟩ 0 ⟨0, 0, 0, 0⟩ ⟨253, 0, 0, 255⟩ false) =
    some (.busy, ⟨253, 0, 0, 255⟩, 0, [0xA0, 0x58]) := by decide
/-- V30: a delta of -2 is DIFF. -/
theorem test_encode_diff : encoderAfter (onPixel ⟨0, 0, 0, 255⟩ 0 ⟨0, 0, 0, 0⟩ ⟨254, 254, 254, 255⟩ false) =
    some (.busy, ⟨254, 254, 254, 255⟩, 0, [0x40]) := by decide

/-! Header and file (V2, V6 to V9, V93, Program E). -/

theorem test_build_header : buildHeader 16909060 4294967295 3 1 =
    .ok [0x71, 0x6F, 0x69, 0x66, 1, 2, 3, 4, 0xFF, 0xFF, 0xFF, 0xFF, 3, 1] ∧
    buildHeader 1 1 2 0 = .error (.contract .headerField) := by decide
theorem test_parse_header :
    parseHeader [0x71, 0x6F, 0x69, 0x66, 0, 0, 1, 0, 0, 0, 0, 2, 3, 1] = .ok ⟨256, 2, 3, 1⟩ ∧
    parseHeader [0x71, 0x6F, 0x69, 0x67, 0, 0, 0, 3, 0, 0, 0, 1, 4, 0] = .error (.format .badMagic) ∧
    parseHeader [0x71, 0x6F, 0x69, 0x66, 0, 0, 0, 3, 0, 0, 0, 1, 5, 2] = .error (.format .badChannels) := by decide
/-- The file of S6. -/
def fileE : List Byte :=
  [0x71, 0x6F, 0x69, 0x66, 0, 0, 0, 3, 0, 0, 0, 1, 4, 0, 0xAA, 0x88, 0xC0, 0x9F, 0xBA, 0, 0, 0, 0, 0, 0, 0, 1]
theorem test_encode_file :
    encodeFile codecHash ⟨3, 1, .four, 0⟩ [⟨10, 10, 10, 255⟩, ⟨10, 10, 10, 255⟩, ⟨12, 9, 11, 255⟩] = .ok fileE ∧
    encodeFile codecHash ⟨2, 2, .four, 0⟩ [⟨0, 0, 0, 0⟩, ⟨0, 0, 0, 0⟩, ⟨0, 0, 0, 0⟩] = .error (.contract .pixelCount) := by decide
theorem test_decode_file : decodeFile codecHash fileE =
    .ok (⟨3, 1, 4, 0⟩, [⟨10, 10, 10, 255⟩, ⟨10, 10, 10, 255⟩, ⟨12, 9, 11, 255⟩]) := by decide
/-- R113: rows top to bottom, alpha 255 for three channels, the image's own alpha for four. -/
theorem test_image_pixels :
    imagePixels ⟨.threeChannels [[(1, 2, 3), (4, 5, 6)], [(7, 8, 9), (10, 11, 12)]], 0⟩ =
      [⟨1, 2, 3, 255⟩, ⟨4, 5, 6, 255⟩, ⟨7, 8, 9, 255⟩, ⟨10, 11, 12, 255⟩] ∧
    imagePixels ⟨.fourChannels [[⟨1, 2, 3, 4⟩], [⟨5, 6, 7, 8⟩]], 1⟩ = [⟨1, 2, 3, 4⟩, ⟨5, 6, 7, 8⟩] := by decide
/-- R112, R244: a header carries the image's own channels and colorspace, and one opaque black pixel is a run (V61). -/
theorem test_encode_image : encodeImage codecHash 1 1 ⟨.threeChannels [[(0, 0, 0)]], 1⟩ =
    .ok [0x71, 0x6F, 0x69, 0x66, 0, 0, 0, 1, 0, 0, 0, 1, 3, 1, 0xC0, 0, 0, 0, 0, 0, 0, 0, 1] := by decide

/-! WITNESSES. For each statement of Certificates/Slice0/Obligations.lean with hypotheses, a state and operands that meet
all of them together. For a statement with cases, one witness a case, at the edge of its range. -/

theorem witness_EncoderStartSetsResetValues :
    let s : State := { State.reset with host := [.encStart, .decStep] }
    s.host = .encStart :: [.decStep] ∧ s.passRunning = false := by decide
theorem witness_DecoderStartLoadsStream :
    let s : State := { State.reset with host := [.decStart [0x7F, 0xC0] 3] }
    s.host = .decStart [0x7F, 0xC0] 3 :: [] ∧ s.passRunning = false := by decide
/-- Also of the four other chunks' completion statements: their operands are at the edges of their ranges. -/
theorem witness_RgbCodesRawChannelsAndKeepsAlpha :
    midStream.dec.status = .busy ∧ midStream.dec.cnt < midStream.dec.n := by decide
theorem witness_RgbaCodesAllRawChannels :
    midStream.dec.status = .busy ∧ midStream.dec.cnt < midStream.dec.n := by decide
theorem witness_IndexReadsSlotWithoutStoring :
    midStream.dec.status = .busy ∧ midStream.dec.cnt < midStream.dec.n ∧
    cacheLookup midStream.dec.cache 16 = ⟨128, 64, 32, 16⟩ := by decide
theorem witness_DiffAddsDeltasModulo256 :
    (-2 ≤ (-2 : Int) ∧ (-2 : Int) ≤ 1) ∧ (-2 ≤ (1 : Int) ∧ (1 : Int) ≤ 1) ∧ (-2 ≤ (0 : Int) ∧ (0 : Int) ≤ 1) ∧
    midStream.dec.status = .busy ∧ midStream.dec.cnt < midStream.dec.n := by decide
theorem witness_LumaAddsGreenAndDifferencesModulo256 :
    (-32 ≤ (-32 : Int) ∧ (-32 : Int) ≤ 31) ∧ (-8 ≤ (7 : Int) ∧ (7 : Int) ≤ 7) ∧
    (-8 ≤ (-8 : Int) ∧ (-8 : Int) ≤ 7) ∧ midStream.dec.status = .busy ∧
    midStream.dec.cnt < midStream.dec.n := by decide
/-- The run that exactly reaches the expected count. -/
theorem witness_RunRepeatsPreviousPixel :
    1 ≤ 9 ∧ 9 ≤ 62 ∧ midStream.dec.status = .busy ∧ midStream.dec.cnt < midStream.dec.n ∧
    midStream.dec.cnt + 9 ≤ midStream.dec.n := by decide
theorem witness_StoringChunksStoreTheirParsersPixel_diff :
    parseChunk [0x77] = .ok (.diff 1 (-1) 1) ∧
    storedPixelParser (kind 0x77) midStream.dec.prev [0x77] = some (.ok ⟨132, 61, 35, 16⟩) ∧
    midStream.dec.status = .busy ∧ midStream.dec.cnt < midStream.dec.n := by decide
theorem witness_StoringChunksStoreTheirParsersPixel_luma :
    parseChunk [0x9F, 0xBA] = .ok (.luma (-1) 3 2) ∧
    storedPixelParser (kind 0x9F) midStream.dec.prev [0x9F, 0xBA] = some (.ok ⟨133, 61, 35, 16⟩) ∧
    midStream.dec.status = .busy ∧ midStream.dec.cnt < midStream.dec.n := by decide
theorem witness_StoringChunksStoreTheirParsersPixel_rgb :
    parseChunk [0xFE, 9, 9, 9] = .ok (.rgb 9 9 9) ∧
    storedPixelParser (kind 0xFE) midStream.dec.prev [0xFE, 9, 9, 9] = some (.ok ⟨9, 9, 9, 16⟩) ∧
    midStream.dec.status = .busy ∧ midStream.dec.cnt < midStream.dec.n := by decide
theorem witness_StoringChunksStoreTheirParsersPixel_rgba :
    parseChunk [0xFF, 9, 9, 9, 7] = .ok (.rgba 9 9 9 7) ∧
    storedPixelParser (kind 0xFF) midStream.dec.prev [0xFF, 9, 9, 9, 7] = some (.ok ⟨9, 9, 9, 7⟩) ∧
    midStream.dec.status = .busy ∧ midStream.dec.cnt < midStream.dec.n := by decide
/-- One copy too many. -/
theorem witness_RunPastExpectedCountRaises :
    1 ≤ 10 ∧ 10 ≤ 62 ∧ midStream.dec.status = .busy ∧ midStream.dec.cnt < midStream.dec.n ∧
    midStream.dec.n < midStream.dec.cnt + 10 := by decide
theorem witness_ChunkOutOfSequenceRaises_status : State.powerOn.dec.status ≠ .busy := by
  intro h; cases h
theorem witness_ChunkOutOfSequenceRaises_count : State.reset.dec.n ≤ State.reset.dec.cnt := by decide
theorem witness_OperandOutOfRangeRaises_diff :
    ¬ ((-2 ≤ (0 : Int) ∧ (0 : Int) ≤ 1) ∧ (-2 ≤ (2 : Int) ∧ (2 : Int) ≤ 1) ∧ (-2 ≤ (0 : Int) ∧ (0 : Int) ≤ 1)) ∧
    midStream.dec.status = .busy ∧ midStream.dec.cnt < midStream.dec.n ∧
    (Instr.diff 0 2 0).wellFormed = false := by decide
theorem witness_OperandOutOfRangeRaises_luma :
    ¬ ((-32 ≤ (-33 : Int) ∧ (-33 : Int) ≤ 31) ∧ (-8 ≤ (0 : Int) ∧ (0 : Int) ≤ 7) ∧ (-8 ≤ (0 : Int) ∧ (0 : Int) ≤ 7)) ∧
    midStream.dec.status = .busy ∧ midStream.dec.cnt < midStream.dec.n ∧
    (Instr.luma (-33) 0 0).wellFormed = false := by decide
theorem witness_OperandOutOfRangeRaises_run :
    ¬ (1 ≤ 0 ∧ 0 ≤ 62) ∧ ¬ (1 ≤ 63 ∧ 63 ≤ 62) ∧ midStream.dec.status = .busy ∧
    midStream.dec.cnt < midStream.dec.n ∧ (Instr.run 63).wellFormed = false := by decide
theorem witness_ExhaustedStreamRaises :
    (onStream [] 1).host = [] ∧ (onStream [] 1).dec.status = .busy ∧ (onStream [] 1).dec.cnt < (onStream [] 1).dec.n ∧
    (onStream [] 1).dec.len ≤ (onStream [] 1).dec.bp := by decide
theorem witness_TruncatedChunkRaises :
    (onStream [0xAA] 1).host = [] ∧ (onStream [0xAA] 1).dec.status = .busy ∧
    (onStream [0xAA] 1).dec.cnt < (onStream [0xAA] 1).dec.n ∧
    (onStream [0xAA] 1).dec.bp < (onStream [0xAA] 1).dec.len ∧
    (onStream [0xAA] 1).dec.len <
      (onStream [0xAA] 1).dec.bp + chunkLen (memoryRead (onStream [0xAA] 1).dec.mem (onStream [0xAA] 1).dec.bp) := by
  decide
theorem witness_RaisingStepChangesOnlyStatus :
    ∃ t, (onStream [0xC2] 2).host = [] ∧ (onStream [0xC2] 2).dec.status = .busy ∧
      (onStream [0xC2] 2).dec.cnt < (onStream [0xC2] 2).dec.n ∧ step (onStream [0xC2] 2) = .next t ∧
      t.dec.status = .fault (.format .pixelCount) ∧ Err.format .pixelCount ≠ .format .trailingBytes :=
  ⟨_, rfl, rfl, by decide, rfl, by decide, by decide⟩
/-- A faulted decoder asked for another step; the next witness is the encoder's. -/
theorem witness_FaultIsLeftOnlyByStart_decoder :
    let s : State := { State.reset with dec := (decStart [] 1).raise (.format .streamExhausted), host := [.decStep] }
    ∃ t, step s = .next t ∧ (∃ e, s.dec.status = .fault e) ∧ s.host = [.decStep] ∧ startsDecoder .decStep = false :=
  ⟨_, rfl, ⟨_, rfl⟩, rfl, rfl⟩
theorem witness_FaultIsLeftOnlyByStart_encoder :
    let s : State := { State.reset with enc := encStart.raise (.contract .sequence), host := [.encCollect] }
    ∃ t, step s = .next t ∧ (∃ e, s.enc.status = .fault e) ∧ s.host = [.encCollect] ∧
      startsEncoder .encCollect = false := ⟨_, rfl, ⟨_, rfl⟩, rfl, rfl⟩
theorem witness_StepRunsDecodedInstruction :
    midStream.host = [] ∧ midStream.dec.status = .busy ∧ midStream.dec.cnt < midStream.dec.n ∧
    decode (remainingBytes midStream.dec) = .ok (.index 16, [0x7F, 0x9F, 0xBA, 0xC1]) := by decide
/-- The pass goes on. -/
theorem witness_PassEndsAtExpectedCount_goes_on :
    ∃ t, midStream.host = [] ∧ midStream.dec.status = .busy ∧ midStream.dec.cnt < midStream.dec.n ∧
      decode (remainingBytes midStream.dec) = .ok (.index 16, [0x7F, 0x9F, 0xBA, 0xC1]) ∧
      exec (.index 16) midStream = .next t ∧ t.dec.status = .busy ∧ t.dec.cnt < t.dec.n :=
  ⟨_, rfl, rfl, by decide, by decide, rfl, rfl, by decide⟩
/-- The pass is done. -/
theorem witness_PassEndsAtExpectedCount_done :
    ∃ t, (onStream [0x7F] 1).host = [] ∧ (onStream [0x7F] 1).dec.status = .busy ∧ (onStream [0x7F] 1).dec.cnt < (onStream [0x7F] 1).dec.n ∧
      decode (remainingBytes (onStream [0x7F] 1).dec) = .ok (.diff 1 1 1, []) ∧
      exec (.diff 1 1 1) (onStream [0x7F] 1) = .next t ∧ t.dec.status = .busy ∧ ¬ t.dec.cnt < t.dec.n ∧
      t.dec.bp = t.dec.len :=
  ⟨_, rfl, rfl, by decide, by decide, rfl, rfl, by decide, rfl⟩
/-- A byte is left over. -/
theorem witness_PassEndsAtExpectedCount_trailing :
    ∃ t, (onStream [0x7F, 0x7F] 1).host = [] ∧ (onStream [0x7F, 0x7F] 1).dec.status = .busy ∧ (onStream [0x7F, 0x7F] 1).dec.cnt < (onStream [0x7F, 0x7F] 1).dec.n ∧
      decode (remainingBytes (onStream [0x7F, 0x7F] 1).dec) = .ok (.diff 1 1 1, [0x7F]) ∧
      exec (.diff 1 1 1) (onStream [0x7F, 0x7F] 1) = .next t ∧ t.dec.status = .busy ∧ ¬ t.dec.cnt < t.dec.n ∧
      t.dec.bp ≠ t.dec.len :=
  ⟨_, rfl, rfl, by decide, by decide, rfl, rfl, by decide, by decide⟩
theorem witness_StepAdvancesByOneChunk :
    ∃ t, midStream.host = [] ∧ midStream.dec.status = .busy ∧ midStream.dec.cnt < midStream.dec.n ∧
      step midStream = .next t ∧ t.dec.status = .busy := ⟨_, rfl, rfl, by decide, rfl, by decide⟩
theorem witness_InputBufferIsImmutable :
    ∃ t, step { midStream with host := [.decStep] } = .next t ∧ startsDecoder .decStep = false := ⟨_, rfl, rfl⟩
/-- The other case of the premise: a START queued while a pass runs. -/
theorem witness_InputBufferIsImmutable_pass :
    let s : State := { midStream with host := [.decStart [] 0], inDecPass := true }
    ∃ t, step s = .next t ∧ s.passRunning = true := ⟨_, rfl, by decide⟩
theorem witness_OutputsOnlyGrow_pass :
    let s : State := { midStream with host := [.encStart], inDecPass := true }
    ∃ t, step s = .next t ∧ s.passRunning = true ∧ ∀ e, t.dec.status ≠ .fault e :=
  ⟨_, rfl, by decide, fun _ h => by cases h⟩
theorem witness_FaultIsLeftOnlyByStart_pass :
    let s : State := { midStream with
      enc := encStart.raise (.contract .sequence), host := [.encStart], inDecPass := true }
    ∃ t, step s = .next t ∧ (∃ e, s.enc.status = .fault e) ∧ s.passRunning = true := ⟨_, rfl, ⟨_, rfl⟩, by decide⟩
/-- The decoder's own moves with a queue behind a running `DEC_PASS`. -/
theorem witness_StepRunsDecodedInstruction_pass :
    let s : State := { midStream with host := [.decCollect], inDecPass := true }
    s.inDecPass = true ∧ s.dec.status = .busy ∧ s.dec.cnt < s.dec.n ∧
    decode (remainingBytes s.dec) = .ok (.index 16, [0x7F, 0x9F, 0xBA, 0xC1]) := by decide
theorem witness_ExhaustedStreamRaises_pass :
    let s : State := { onStream [] 1 with host := [.decCollect], inDecPass := true }
    s.inDecPass = true ∧ s.dec.status = .busy ∧ s.dec.cnt < s.dec.n ∧ s.dec.len ≤ s.dec.bp := by decide
theorem witness_TruncatedChunkRaises_pass :
    let s : State := { onStream [0xAA] 1 with host := [.decCollect], inDecPass := true }
    s.inDecPass = true ∧ s.dec.status = .busy ∧ s.dec.cnt < s.dec.n ∧ s.dec.bp < s.dec.len ∧
    s.dec.len < s.dec.bp + chunkLen (memoryRead s.dec.mem s.dec.bp) := by decide
theorem witness_RaisingStepChangesOnlyStatus_pass :
    let s : State := { onStream [0xC2] 2 with host := [.decCollect], inDecPass := true }
    ∃ t, s.inDecPass = true ∧ s.dec.status = .busy ∧ s.dec.cnt < s.dec.n ∧ step s = .next t ∧
      t.dec.status = .fault (.format .pixelCount) := ⟨_, rfl, rfl, by decide, rfl, by decide⟩
theorem witness_PassEndsAtExpectedCount_pass :
    let s : State := { onStream [0x7F] 1 with host := [.decCollect], inDecPass := true }
    ∃ t, s.inDecPass = true ∧ s.dec.status = .busy ∧ s.dec.cnt < s.dec.n ∧
      decode (remainingBytes s.dec) = .ok (.diff 1 1 1, []) ∧ exec (.diff 1 1 1) s = .next t ∧ t.dec.status = .busy :=
  ⟨_, rfl, rfl, by decide, by decide, rfl, rfl⟩
theorem witness_StepAdvancesByOneChunk_pass :
    let s : State := { midStream with host := [.decCollect], inDecPass := true }
    ∃ t, s.inDecPass = true ∧ s.dec.status = .busy ∧ s.dec.cnt < s.dec.n ∧ step s = .next t ∧
      t.dec.status = .busy := ⟨_, rfl, rfl, by decide, rfl, by decide⟩
theorem witness_AgentsDoNotInterfere_passes :
    (let s : State := { midStream with host := [.decCollect], inDecPass := true }
     ∃ t, s.inDecPass = true ∧ s.dec.status = .busy ∧ step s = .next t) ∧
    (let s : State := { State.powerOn with enc := encPassStart [⟨1, 1, 1, 255⟩], host := [.encCollect] }
     ∃ t, s.enc.canMove = true ∧ s.dec.status ≠ .busy ∧ Dec.reset.endPass.status ≠ .busy ∧ step s = .next t) :=
  ⟨⟨_, rfl, rfl, rfl⟩, ⟨_, by decide, (fun h => by cases h), by decide, rfl⟩⟩
theorem witness_OutputsOnlyGrow :
    ∃ t, step (onPixel ⟨0, 0, 0, 255⟩ 0 ⟨0, 0, 0, 0⟩ ⟨1, 1, 1, 255⟩ false) = .next t ∧
      (∀ e, t.dec.status ≠ .fault e) ∧
      startsDecoder (.encStep ⟨1, 1, 1, 255⟩ false) = false ∧
      startsEncoder (.encStep ⟨1, 1, 1, 255⟩ false) = false := ⟨_, rfl, (fun _ h => by cases h), rfl, rfl⟩
/-- Both ends of each range of lead bytes (30_encoding.md R81). -/
theorem witness_LeadByteMap :
    kind 0x00 = .index ∧ kind 0x3F = .index ∧ kind 0x40 = .diff ∧ kind 0x7F = .diff ∧ kind 0x80 = .luma ∧
    kind 0xBF = .luma ∧ kind 0xC0 = .run ∧ kind 0xFD = .run ∧ kind 0xFE = .rgb ∧ kind 0xFF = .rgba := by decide
theorem witness_DecodeFailsOnLengthOnly :
    decode [0x7F] = .ok (.diff 1 1 1, []) ∧ decode [] = .error (.format .streamExhausted) ∧
    [(0xFF : Byte), 1, 2, 3].length < chunkLen 0xFF := by decide
theorem witness_DecodeOfEncodeIsIdentity :
    (Instr.luma (-32) 7 (-8)).wellFormed = true ∧ (Instr.run 62).wellFormed = true := by decide
theorem witness_EncodeOfDecodeIsIdentity : decode [0x9F, 0xBA, 0x10] = .ok (.luma (-1) 3 2, [0x10]) := by decide
/-- The ends of each serialiser's ranges, and the first value outside (30_encoding.md R86). -/
theorem witness_SerialisersFollowTheirFormulas :
    encIndex 0 = .ok [0x00] ∧ encIndex 63 = .ok [0x3F] ∧ encIndex (-1) = .error (.contract .indexRange) ∧
    encDiff ⟨-2, -2, -2⟩ = .ok [0x40] ∧ encDiff ⟨1, 1, 1⟩ = .ok [0x7F] ∧
    encLuma ⟨-40, -32, -40⟩ = .ok [0x80, 0x00] ∧ encLuma ⟨38, 31, 38⟩ = .ok [0xBF, 0xFF] ∧
    encRun 1 = .ok [0xC0] ∧ encRun 0 = .error (.contract .runRange) := by decide
theorem witness_ParsersInvertSerialisers :
    (⟨1, 0, 255, 9⟩ : Pixel).a = (⟨0, 1, 0, 9⟩ : Pixel).a ∧ (⟨38, 31, 38, 9⟩ : Pixel).a = (⟨0, 0, 0, 9⟩ : Pixel).a ∧
    diffOk (delta ⟨1, 0, 255, 9⟩ ⟨0, 1, 0, 9⟩) = true ∧ lumaOk (delta ⟨38, 31, 38, 9⟩ ⟨0, 0, 0, 9⟩) = true ∧
    1 ≤ 62 ∧ 62 ≤ 62 := by decide
theorem witness_DeltaIsTheSignedByteDifference :
    (delta ⟨128, 127, 129, 0⟩ ⟨0, 0, 0, 0⟩).dr = -128 ∧ (delta ⟨128, 127, 129, 0⟩ ⟨0, 0, 0, 0⟩).dg = 127 := by decide
/-- The two ends of the range, a slot next to one, and the first integers outside. -/
theorem witness_CacheStoreOverwritesOneSlot :
    cacheStoreAt Enc.reset.cache 0 ⟨1, 2, 3, 4⟩ = .ok (cacheStore Enc.reset.cache 0 ⟨1, 2, 3, 4⟩) ∧
    cacheStoreAt Enc.reset.cache 63 ⟨1, 2, 3, 4⟩ = .ok (cacheStore Enc.reset.cache 63 ⟨1, 2, 3, 4⟩) ∧
    cacheLookupAt Enc.reset.cache 62 = .ok ⟨0, 0, 0, 0⟩ ∧
    cacheStoreAt Enc.reset.cache 64 ⟨1, 2, 3, 4⟩ = .error (.contract .cacheIndex) ∧
    cacheStoreAt Enc.reset.cache (-1) ⟨1, 2, 3, 4⟩ = .error (.contract .cacheIndex) := by decide
theorem witness_HashIsTheWeightedSumModulo64 :
    255 < 256 ∧ (3 * 255 + 5 * 255 + 7 * 255 + 11 * 255) % 64 = 38 := by decide

/-- The encoder of `onPixel` in the case a run grows. -/
theorem witness_EqualPixelExtendsRun_grows :
    let s := onPixel ⟨7, 7, 7, 255⟩ 60 ⟨7, 7, 7, 255⟩ ⟨7, 7, 7, 255⟩ false
    s.host = [.encStep s.enc.prev false] ∧ s.passRunning = false ∧ s.enc.status = .busy ∧ s.enc.run < 62 ∧
    ¬ (s.enc.run + 1 = 62 ∨ false = true) := by decide
theorem witness_EqualPixelExtendsRun_cap :
    let s := onPixel ⟨7, 7, 7, 255⟩ 61 ⟨7, 7, 7, 255⟩ ⟨7, 7, 7, 255⟩ false
    s.host = [.encStep s.enc.prev false] ∧ s.passRunning = false ∧ s.enc.status = .busy ∧ s.enc.run < 62 ∧ s.enc.run + 1 = 62 := by decide
theorem witness_EqualPixelExtendsRun_last :
    let s := onPixel ⟨7, 7, 7, 255⟩ 0 ⟨7, 7, 7, 255⟩ ⟨7, 7, 7, 255⟩ true
    s.host = [.encStep s.enc.prev true] ∧ s.passRunning = false ∧ s.enc.status = .busy ∧ s.enc.run < 62 := by decide
theorem witness_CachedPixelIsCodedAsIndex :
    let s := onPixel ⟨11, 10, 10, 254⟩ 3 ⟨10, 10, 10, 255⟩ ⟨10, 10, 10, 255⟩ false
    s.host = [.encStep ⟨10, 10, 10, 255⟩ false] ∧ s.passRunning = false ∧
    s.enc.status = .busy ∧ s.enc.run < 62 ∧ (⟨10, 10, 10, 255⟩ : Pixel) ≠ s.enc.prev ∧
    cacheLookup s.enc.cache (codecHash ⟨10, 10, 10, 255⟩) = ⟨10, 10, 10, 255⟩ := by decide
theorem witness_MissedPixelIsStoredAndCoded_diff :
    let s := onPixel ⟨0, 0, 0, 255⟩ 61 ⟨0, 0, 0, 0⟩ ⟨1, 1, 254, 255⟩ false
    s.host = [.encStep ⟨1, 1, 254, 255⟩ false] ∧ s.passRunning = false ∧
    s.enc.status = .busy ∧ s.enc.run < 62 ∧ (⟨1, 1, 254, 255⟩ : Pixel) ≠ s.enc.prev ∧
    cacheLookup s.enc.cache (codecHash ⟨1, 1, 254, 255⟩) ≠ ⟨1, 1, 254, 255⟩ ∧
    diffOk (delta ⟨1, 1, 254, 255⟩ s.enc.prev) = true := by decide
theorem witness_MissedPixelIsStoredAndCoded_luma :
    let s := onPixel ⟨0, 0, 0, 255⟩ 0 ⟨0, 0, 0, 0⟩ ⟨2, 0, 0, 255⟩ true
    s.host = [.encStep ⟨2, 0, 0, 255⟩ true] ∧ s.passRunning = false ∧
    s.enc.status = .busy ∧ s.enc.run < 62 ∧ (⟨2, 0, 0, 255⟩ : Pixel) ≠ s.enc.prev ∧
    cacheLookup s.enc.cache (codecHash ⟨2, 0, 0, 255⟩) ≠ ⟨2, 0, 0, 255⟩ ∧
    diffOk (delta ⟨2, 0, 0, 255⟩ s.enc.prev) = false ∧ lumaOk (delta ⟨2, 0, 0, 255⟩ s.enc.prev) = true := by decide
theorem witness_MissedPixelIsStoredAndCoded_rgb :
    let s := onPixel ⟨0, 0, 0, 255⟩ 0 ⟨0, 0, 0, 0⟩ ⟨8, 0, 0, 255⟩ false
    s.host = [.encStep ⟨8, 0, 0, 255⟩ false] ∧ s.passRunning = false ∧
    s.enc.status = .busy ∧ s.enc.run < 62 ∧ (⟨8, 0, 0, 255⟩ : Pixel) ≠ s.enc.prev ∧
    cacheLookup s.enc.cache (codecHash ⟨8, 0, 0, 255⟩) ≠ ⟨8, 0, 0, 255⟩ ∧
    diffOk (delta ⟨8, 0, 0, 255⟩ s.enc.prev) = false ∧ lumaOk (delta ⟨8, 0, 0, 255⟩ s.enc.prev) = false := by decide
theorem witness_MissedPixelIsStoredAndCoded_rgba :
    let s := onPixel ⟨0, 0, 0, 255⟩ 0 ⟨0, 0, 0, 0⟩ ⟨0, 0, 0, 254⟩ false
    s.host = [.encStep ⟨0, 0, 0, 254⟩ false] ∧ s.passRunning = false ∧
    s.enc.status = .busy ∧ s.enc.run < 62 ∧ (⟨0, 0, 0, 254⟩ : Pixel) ≠ s.enc.prev ∧
    cacheLookup s.enc.cache (codecHash ⟨0, 0, 0, 254⟩) ≠ ⟨0, 0, 0, 254⟩ ∧
    (⟨0, 0, 0, 254⟩ : Pixel).a ≠ s.enc.prev.a := by decide
theorem witness_PreviousPixelIsAlwaysTheLastCoded : encStart.status = .busy ∧ encStart.run < 62 := by decide
theorem witness_LastPixelClosesRun :
    encStart.run < 62 ∧ ∃ e, encStart.step codecHash ⟨0, 0, 0, 255⟩ true = .ok e ∧ e.outBytes = [0xC0] :=
  ⟨by decide, _, rfl, by decide⟩
theorem witness_PixelOutOfSequenceRaises :
    let s : State := { State.powerOn with host := [.encStep ⟨0, 0, 0, 0⟩ false] }
    s.host = [.encStep ⟨0, 0, 0, 0⟩ false] ∧ s.passRunning = false ∧ s.enc.status ≠ .busy :=
  ⟨rfl, rfl, fun h => by cases h⟩
theorem witness_AnyChunkSequenceDecodes :
    ∀ i ∈ [Instr.run 62, .run 1, .diff 0 0 0, .index 5], i.wellFormed = true := by decide
theorem witness_MachineRunsDecodePass :
    let s : State := { State.reset with host := [.decPass [0x7F] 1, .decStart [] 0] }
    s.host = .decPass [0x7F] 1 :: [.decStart [] 0] ∧ s.passRunning = false := by decide
theorem witness_MachineRunsEncodePass_idle :
    let s : State := { State.powerOn with host := [.encPass [⟨0, 0, 0, 255⟩]] }
    s.host = .encPass [⟨0, 0, 0, 255⟩] :: [] ∧ s.passRunning = false ∧ s.dec.status ≠ .busy :=
  ⟨rfl, rfl, fun h => by cases h⟩
theorem witness_MachineRunsEncodePass_queue :
    let s : State := { State.reset with host := [.encPass [⟨0, 0, 0, 255⟩], .encCollect] }
    s.host = .encPass [⟨0, 0, 0, 255⟩] :: [.encCollect] ∧ s.passRunning = false ∧ [HostOp.encCollect] ≠ [] := by decide
theorem witness_HeaderRoundTrip :
    2 ^ 32 - 1 < 2 ^ 32 ∧ 0 < 2 ^ 32 ∧ (3 = 3 ∨ 3 = 4) ∧ (1 = 0 ∨ 1 = 1) := by decide
theorem witness_BuildHeaderLaysOutFields :
    buildHeader 0 4294967295 4 0 = .ok ([0x71, 0x6F, 0x69, 0x66] ++ be32 0 ++ be32 4294967295 ++ [4, 0]) ∧
    buildHeader 0 4294967296 4 0 = .error (.contract .headerField) ∧
    buildHeader (-1) 0 4 0 = .error (.contract .headerField) := by decide
/-- V1, V5, V6, V7, V8: one witness for each case. -/
theorem witness_HeaderDefectsAreReportedInOrder :
    parseHeader [0x71, 0x6F, 0x69, 0x66, 0, 0, 0, 3, 0, 0, 0, 1, 4] = .error (.format .headerShort) ∧
    parseHeader [0x71, 0x6F, 0x69, 0x67, 0, 0, 0, 3, 0, 0, 0, 1, 5, 2] = .error (.format .badMagic) ∧
    parseHeader [0x71, 0x6F, 0x69, 0x66, 0, 0, 0, 3, 0, 0, 0, 1, 5, 2] = .error (.format .badChannels) ∧
    parseHeader [0x71, 0x6F, 0x69, 0x66, 0, 0, 0, 3, 0, 0, 0, 1, 4, 2] = .error (.format .badColorspace) ∧
    parseHeader [0x71, 0x6F, 0x69, 0x66, 0, 0, 0, 3, 0, 0, 0, 1, 4, 0, 0xAA] = .ok ⟨3, 1, 4, 0⟩ := by decide
theorem witness_BigEndianBytesAndInverse :
    be32 (2 ^ 32 - 1) = [0xFF, 0xFF, 0xFF, 0xFF] ∧ be32 0x01020304 = [1, 2, 3, 4] := by decide
theorem witness_FileRoundTrip_image :
    (imagePixels ⟨.threeChannels [[(1, 2, 3)], [(4, 5, 6)]], 1⟩).length =
      (1 : Fin (2 ^ 32)).val * (2 : Fin (2 ^ 32)).val := by decide
theorem witness_FileRoundTrip :
    let fields : HeaderFields := ⟨3, 1, .four, 0⟩
    [(⟨10, 10, 10, 255⟩ : Pixel), ⟨10, 10, 10, 255⟩, ⟨12, 9, 11, 255⟩].length =
      fields.width.val * fields.height.val := by decide
/-- The last paragraph of the FormatError table of 95_test_vectors.md: one witness for each case. -/
theorem witness_FileDefectsAreReportedInOrder :
    decodeFile codecHash (fileE.take 13) = .error (.format .headerShort) ∧
    decodeFile codecHash (fileE.take 21) = .error (.format .truncatedStream) ∧
    decodeFile codecHash (fileE.take 26 ++ [0]) = .error (.format .badEos) ∧
    decodeFile codecHash (fileE.set 7 4) = .error (.format .streamExhausted) ∧
    decodeFile codecHash (fileE.set 7 2) = .error (.format .trailingBytes) := by decide

/-- A running pass with a chunk to take meets the invariant. -/
theorem witness_EveryStepKeepsInvariant :
    Inv (onStream [0x7F] 1) ∧ ∃ t, step (onStream [0x7F] 1) = .next t := by
  refine ⟨⟨⟨fun _ => ⟨by decide, cacheInv_zero _⟩, by simp [onStream, State.reset, Enc.reset],
      by simp [onStream, State.reset, Enc.reset]⟩,
    by decide, fun a ha => ?_, fun _ => ⟨by decide, by decide, by decide, cacheInv_zero _⟩,
    by simp [onStream], by simp [onStream]⟩, _, rfl⟩
  exact memoryRead_load_outside [0x7F] [] 0 a rfl (.inr (by simpa [onStream] using ha))
theorem witness_AgentsDoNotInterfere_decoder :
    ∃ t, midStream.host = [] ∧ midStream.dec.status = .busy ∧ step midStream = .next t := ⟨_, rfl, rfl, rfl⟩
theorem witness_AgentsDoNotInterfere_encoder :
    let s : State := { State.reset with
      enc := encPassStart [⟨1, 1, 1, 255⟩], dec := { Dec.reset with status := .done } }
    ∃ t, s.host = [] ∧ s.dec.status ≠ .busy ∧ State.powerOn.dec.status ≠ .busy ∧ step s = .next t :=
  ⟨_, rfl, by decide, (fun h => by cases h), rfl⟩
/-- Both sides of the statement: a machine that cannot move, and one that can. -/
theorem witness_MachineStopsOnlyWhenNoAgentCanMove :
    step { State.reset with dec := { Dec.reset with status := .done } } = .fault .noAgentCanMove ∧
    ∃ t, step State.reset = .next t := ⟨rfl, _, rfl⟩

/-- A `DEC_STEP` of the host with a chunk to run, with another operation after it. -/
theorem witness_HostDecStepRunsOneChunk_runs :
    let s : State := { midStream with host := [.decStep, .decCollect] }
    s.host = [.decStep, .decCollect] ∧ s.passRunning = false ∧ s.dec.status = .busy ∧ s.dec.cnt < s.dec.n ∧
    decode (remainingBytes s.dec) = .ok (.index 16, [0x7F, 0x9F, 0xBA, 0xC1]) := by decide
theorem witness_HostDecStepRunsOneChunk_raises :
    let s : State := { onStream [0xAA] 1 with host := [.decStep] }
    s.host = [.decStep] ∧ s.passRunning = false ∧ s.dec.status = .busy ∧ s.dec.cnt < s.dec.n ∧
    decode (remainingBytes s.dec) = .error (.format .truncatedChunk) := by decide
theorem witness_HostDecStepRunsOneChunk_status :
    let s : State := { State.powerOn with host := [.decStep] }
    s.host = [.decStep] ∧ s.passRunning = false ∧ s.dec.status ≠ .busy := ⟨rfl, rfl, fun h => by cases h⟩
theorem witness_HostDecStepRunsOneChunk_count :
    let s : State := { onStream [0x7F] 0 with host := [.decStep] }
    s.host = [.decStep] ∧ s.passRunning = false ∧ s.dec.status = .busy ∧ s.dec.n ≤ s.dec.cnt := by decide
/-- Bytes in contract, of the wrong length, of another kind (V90, V91), and the empty sequence. -/
theorem witness_ParsersRaiseOutsideTheirContract :
    meetsContract .luma [0x9F, 0xBA] ∧ ¬ meetsContract .luma [0xAA] ∧ ¬ meetsContract .luma [0x40, 0x88] ∧
    ¬ meetsContract .run [] ∧ meetsContract .run [0xFD] ∧ ¬ meetsContract .run [0xFE] := by
  refine ⟨(checkChunk_none_iff _ _).1 ?_, mt (checkChunk_none_iff _ _).2 ?_, mt (checkChunk_none_iff _ _).2 ?_,
    mt (checkChunk_none_iff _ _).2 ?_, (checkChunk_none_iff _ _).1 ?_, mt (checkChunk_none_iff _ _).2 ?_⟩ <;> decide
/-- A pixel missing (as V93), and the empty image at the largest width. -/
theorem witness_EncodeFileLaysOutOrRejects :
    encodeFile codecHash ⟨1, 1, .four, 0⟩ [] = .error (.contract .pixelCount) ∧
    buildHeader 4294967295 0 3 1 =
      .ok [0x71, 0x6F, 0x69, 0x66, 0xFF, 0xFF, 0xFF, 0xFF, 0, 0, 0, 0, 3, 1] ∧
    encodeFile codecHash ⟨4294967295, 0, .three, 1⟩ [] =
      .ok ([0x71, 0x6F, 0x69, 0x66, 0xFF, 0xFF, 0xFF, 0xFF, 0, 0, 0, 0, 3, 1] ++ [] ++ [0, 0, 0, 0, 0, 0, 0, 1]) := by
  decide
/-- Two rows of width two: the last place, one past the last row and one past the last column; a list cut into rows; a file of
one row and a file cut short. -/
theorem witness_ImagePixelsAreRowMajorAndPadded :
    (∀ r ∈ [[((1 : Byte), (2 : Byte), (3 : Byte)), (4, 5, 6)], [(7, 8, 9), (10, 11, 12)]], r.length = 2) ∧
    pixelAt 2 (imagePixels ⟨.threeChannels [[(1, 2, 3), (4, 5, 6)], [(7, 8, 9), (10, 11, 12)]], 0⟩) 1 1 =
      some ⟨10, 11, 12, 255⟩ ∧
    pixelAt 2 (imagePixels ⟨.threeChannels [[(1, 2, 3), (4, 5, 6)], [(7, 8, 9), (10, 11, 12)]], 0⟩) 2 0 = none ∧
    pixelAt 1 (imagePixels ⟨.fourChannels [[⟨1, 2, 3, 4⟩], [⟨5, 6, 7, 8⟩]], 1⟩) 1 0 = some ⟨5, 6, 7, 8⟩ ∧
    pixelAt 2 (imagePixels ⟨.threeChannels [[(1, 2, 3), (4, 5, 6)], [(7, 8, 9), (10, 11, 12)]], 0⟩) 0 2 = none ∧
    [(⟨1, 0, 0, 0⟩ : Pixel), ⟨2, 0, 0, 0⟩, ⟨3, 0, 0, 0⟩, ⟨4, 0, 0, 0⟩].length = 2 * 2 ∧
    decodeFile codecHash (fileE.take 13) = .error (.format .headerShort) ∧
    decodeFile codecHash fileE =
      .ok (⟨3, 1, 4, 0⟩, [⟨10, 10, 10, 255⟩, ⟨10, 10, 10, 255⟩, ⟨12, 9, 11, 255⟩]) := by decide
/-- R114: row-major order, two rows of three and three of two; a file gives its header and rows. -/
theorem test_rows_of_pixels :
    rowsOfPixels 3 2 [⟨1, 0, 0, 0⟩, ⟨2, 0, 0, 0⟩, ⟨3, 0, 0, 0⟩, ⟨4, 0, 0, 0⟩, ⟨5, 0, 0, 0⟩, ⟨6, 0, 0, 0⟩] =
      [[⟨1, 0, 0, 0⟩, ⟨2, 0, 0, 0⟩, ⟨3, 0, 0, 0⟩], [⟨4, 0, 0, 0⟩, ⟨5, 0, 0, 0⟩, ⟨6, 0, 0, 0⟩]] ∧
    rowsOfPixels 0 2 [] = [[], []] ∧
    decodeImage codecHash fileE =
      .ok (⟨3, 1, 4, 0⟩, [[⟨10, 10, 10, 255⟩, ⟨10, 10, 10, 255⟩, ⟨12, 9, 11, 255⟩]]) := by decide

end Sys2Proof.Tests
end

section
/-! SUPPORT. The codec in one direction: the bytes of a well-formed chunk decode to that chunk. -/

namespace Sys2Proof

/-- A field of the byte of an integer is that integer's field, by division. -/
theorem field_byteOf (v : Int) (lo width : Nat) (h0 : 0 ≤ v) (h1 : v < 256) :
    (field (byteOf v) lo width : Int) = v / 2 ^ lo % 2 ^ width := by
  have hv : (byteOf v).toNat = v.toNat := by
    simp only [byteOf, BitVec.toNat_ofInt]; omega
  simp only [field, BitVec.extractLsb'_toNat, hv, Nat.shiftRight_eq_div_pow]
  push_cast
  rw [Int.toNat_of_nonneg h0]

/-- A well-formed chunk's bytes begin with a lead byte of its kind that asks for exactly as many bytes. -/
theorem chunkBytes_leadByte (i : Instr) : Laws.LeadByte.Statement i := by
  cases i with
  | rgb r g b => exact Laws.LeadByte.rgb r g b
  | rgba r g b a => exact Laws.LeadByte.rgba r g b a
  | index idx => exact Laws.LeadByte.index idx
  | diff dr dg db => exact Laws.LeadByte.diff dr dg db
  | luma dg drg dbg => exact Laws.LeadByte.luma dg drg dbg
  | run count => exact Laws.LeadByte.run count

theorem indexField_byteOf (idx : Index) : indexField (byteOf idx.val) = idx := by
  have hf := field_byteOf idx.val 0 6 (by omega) (by omega)
  refine Fin.ext ?_
  change field (byteOf idx.val) 0 6 = idx.val
  omega

theorem diffFields_byteOf (dr dg db : Int) (h : (Instr.diff dr dg db).violation = none) :
    diffFields (byteOf (0x40 + (dr + diffBias) * 16 + (dg + diffBias) * 4 + (db + diffBias))) = .diff dr dg db := by
  have hl := (diff_legal dr dg db).1 h
  rw [diffFields, diffBias, field_byteOf _ 4 2 (by omega) (by omega), field_byteOf _ 2 2 (by omega) (by omega),
    field_byteOf _ 0 2 (by omega) (by omega), Instr.diff.injEq]
  omega

theorem lumaFields_byteOf (dg drg dbg : Int) (h : (Instr.luma dg drg dbg).violation = none) :
    lumaFields (byteOf (0x80 + (dg + lumaGreenBias)))
      (byteOf ((drg + lumaRedBlueBias) * 16 + (dbg + lumaRedBlueBias))) = .luma dg drg dbg := by
  have hl := (luma_legal dg drg dbg).1 h
  rw [lumaFields, lumaGreenBias, lumaRedBlueBias, field_byteOf _ 0 6 (by omega) (by omega),
    field_byteOf _ 4 4 (by omega) (by omega), field_byteOf _ 0 4 (by omega) (by omega), Instr.luma.injEq]
  omega

theorem runField_byteOf (count : Nat) (h : (Instr.run count).violation = none) :
    runField (byteOf (0xC0 + ((count : Int) - 1))) = count := by
  have hl := (run_legal count).1 h
  have hf := field_byteOf (0xC0 + ((count : Int) - 1)) 0 6 (by omega) (by omega)
  rw [runField]
  omega

/-- The parser reads a well-formed chunk back from its own bytes (30_encoding.md R86). -/
theorem parseChunk_chunkBytes (i : Instr) (h : i.violation = none) : parseChunk (chunkBytes i) = .ok i := by
  obtain ⟨b0, payload, hb, hk, _⟩ := chunkBytes_leadByte i ((wellFormed_iff i).2 h)
  rw [hb, parseChunk, hk]
  cases i with
  | rgb | rgba =>
    obtain ⟨rfl, rfl⟩ := List.cons.inj hb
    rfl
  | index idx =>
    obtain ⟨rfl, rfl⟩ := List.cons.inj hb
    exact congrArg (Except.ok ∘ Instr.index) (indexField_byteOf idx)
  | diff dr dg db =>
    obtain ⟨rfl, rfl⟩ := List.cons.inj hb
    exact congrArg Except.ok (diffFields_byteOf dr dg db h)
  | luma dg drg dbg =>
    obtain ⟨rfl, rfl⟩ := List.cons.inj hb
    exact congrArg Except.ok (lumaFields_byteOf dg drg dbg h)
  | run count =>
    obtain ⟨rfl, rfl⟩ := List.cons.inj hb
    exact congrArg (Except.ok ∘ Instr.run) (runField_byteOf count h)

/-- The decoder reads a well-formed chunk back from the front of any byte sequence that begins with its bytes. -/
theorem decode_chunkBytes (i : Instr) (rest : List Byte) (h : i.violation = none) :
    decode (chunkBytes i ++ rest) = .ok (i, rest) := by
  obtain ⟨b0, payload, hb, _, hl⟩ := chunkBytes_leadByte i ((wellFormed_iff i).2 h)
  have hp : parseChunk (b0 :: payload) = .ok i := hb ▸ parseChunk_chunkBytes i h
  have hlen : ¬ (b0 :: (payload ++ rest)).length < chunkLen b0 := by simp; omega
  rw [hb, List.cons_append, decode, if_neg hlen, ← hl]
  simp [hp]

end Sys2Proof
end

section
/-! SUPPORT. A decode pass is the effects of the chunks its bytes are made of, one after the other. -/

namespace Sys2Proof.Machine

/-- Loading a byte sequence into an empty memory and reading it back gives the sequence. -/
theorem memoryBytes_load (bs : List Byte) : memoryBytes (memoryLoad [] 0 bs) 0 bs.length = bs := by
  refine List.ext_getElem (by simp) fun k h1 h2 => ?_
  rw [memoryBytes_getElem]
  exact memoryRead_load_inside bs [] 0 k rfl h2

/-- Right after a decoder START all of `IN` remains to be read. -/
@[simp] theorem remainingBytes_decStart (inp : List Byte) (n : Nat) : remainingBytes (decStart inp n) = inp :=
  memoryBytes_load inp

/-- A decoder step runs the chunk that the remaining bytes begin with. -/
theorem Dec.step_of_remaining (H : Hash) (d : Dec) (i : Instr) (rest : List Byte) (hr : d.ready = true)
    (hv : i.violation = none) (hb : remainingBytes d = chunkBytes i ++ rest) : d.step H = d.exec H i := by
  have hf : d.fetch = .ok i := by
    rw [Dec.fetch_eq_decode, ← remainingBytes, hb, decode_chunkBytes i rest hv]
  simp [Dec.step, hr, hf]

/-- A chunk that does not raise takes its bytes off the remaining ones. -/
theorem Dec.exec_remaining (H : Hash) (i : Instr) (d d' : Dec) (rest : List Byte) (h : d.exec H i = .ok d')
    (hb : remainingBytes d = chunkBytes i ++ rest) : remainingBytes d' = rest := by
  obtain ⟨_, _, _, hmem, hlen, _, hbp, _⟩ := Dec.exec_ok H i d d' h
  unfold remainingBytes at hb ⊢
  have hle : i.length + rest.length = d.len - d.bp := by
    simpa [chunkBytes_length] using congrArg List.length hb.symm
  rw [← hle, memoryBytes_append] at hb
  rw [hmem, hlen, hbp, show d.len - (d.bp + i.length) = rest.length by omega]
  exact (List.append_inj hb (by simp [chunkBytes_length])).2

/-- `Dec.Runs H d is d'`: the chunks `is`, executed in order from `d`, raise nothing and end in `d'`. -/
inductive Dec.Runs (H : Hash) : Dec → List Instr → Dec → Prop
  | nil (d : Dec) : Dec.Runs H d [] d
  | cons {d d₁ d' : Dec} {i : Instr} {is : List Instr} :
    d.exec H i = .ok d₁ → Dec.Runs H d₁ is d' → Dec.Runs H d (i :: is) d'

theorem Dec.Runs.single {H : Hash} {d d' : Dec} {i : Instr} (h : d.exec H i = .ok d') : Dec.Runs H d [i] d' :=
  .cons h (.nil d')

theorem Dec.Runs.append {H : Hash} {d d₁ d' : Dec} {is js : List Instr} (h : Dec.Runs H d is d₁)
    (h' : Dec.Runs H d₁ js d') : Dec.Runs H d (is ++ js) d' := by
  induction h with
  | nil => exact h'
  | cons hx _ ih => exact .cons hx (ih h')

/-- What a run of chunks does to the counters and to the pass inputs. -/
theorem Dec.Runs.frame {H : Hash} {d d' : Dec} {is : List Instr} (h : Dec.Runs H d is d') :
    d'.n = d.n ∧ d'.len = d.len ∧ d'.bp = d.bp + (is.flatMap chunkBytes).length ∧ d.cnt + is.length ≤ d'.cnt := by
  induction h with
  | nil => simp
  | cons hx _ ih =>
    obtain ⟨hn, hlen, hbp, hcnt⟩ := ih
    obtain ⟨_, _, _, _, hlen', hn', hbp', hcnt', _⟩ := Dec.exec_ok _ _ _ _ hx
    refine ⟨hn.trans hn', hlen.trans hlen', ?_, ?_⟩
    · rw [List.flatMap_cons, List.length_append, chunkBytes_length]; omega
    · rw [List.length_cons]; omega

/-- The loop of `DEC_PASS` over remaining bytes that begin with a run of chunks takes one turn for each of them. -/
theorem Dec.Runs.decSteps_eq {H : Hash} {d d' : Dec} {is : List Instr} (h : Dec.Runs H d is d') (rest : List Byte)
    (k : Nat) (hb : remainingBytes d = is.flatMap chunkBytes ++ rest) :
    decSteps H (is.length + k) d = decSteps H k d' := by
  induction h with
  | nil => simp
  | @cons d d₁ d' i is hx _ ih =>
    obtain ⟨hr, hv, _⟩ := Dec.exec_ok _ _ _ _ hx
    have hb : remainingBytes d = chunkBytes i ++ (is.flatMap chunkBytes ++ rest) := by simpa using hb
    have hs : d.step H = .ok d₁ := (Dec.step_of_remaining H d i _ hr hv hb).trans hx
    rw [List.length_cons, Nat.add_right_comm, decSteps, if_pos ((d.ready_iff).1 hr).2, hs]
    exact ih (Dec.exec_remaining H i d d₁ _ hx hb)

/-- The loop of `DEC_PASS` stops where no more pixels are expected. -/
theorem decSteps_of_complete (H : Hash) (k : Nat) (d : Dec) (h : d.n ≤ d.cnt) : decSteps H k d = .ok d := by
  cases k with
  | zero => rfl
  | succ k => rw [decSteps, if_neg (by omega)]

/-- `DEC_PASS` of the bytes of chunks that produce exactly the expected pixels gives those pixels. -/
theorem decPass_of_runs (H : Hash) (is : List Instr) (n : Nat) (d : Dec)
    (h : Dec.Runs H (decStart (is.flatMap chunkBytes) n) is d) (hc : d.cnt = n) :
    decPass H (is.flatMap chunkBytes) n = .ok d.outPixels := by
  obtain ⟨hn, hlen, hbp, hcnt⟩ := h.frame
  simp only [decStart_n, decStart_len, decStart_bp, decStart_cnt, Nat.zero_add] at hn hlen hbp hcnt
  have hsteps : decSteps H n (decStart (is.flatMap chunkBytes) n) = .ok d := by
    obtain ⟨k, hk⟩ := Nat.exists_eq_add_of_le (hc ▸ hcnt)
    calc decSteps H n (decStart (is.flatMap chunkBytes) n)
        = decSteps H (is.length + k) (decStart (is.flatMap chunkBytes) n) := by rw [← hk]
      _ = decSteps H k d := h.decSteps_eq [] k (by simp)
      _ = .ok d := decSteps_of_complete H k d (by omega)
  simp [decPass, hsteps, hlen, hbp]

end Sys2Proof.Machine
end

section
/-! SUPPORT. The chunk that codes a differing pixel, as an instruction, and what it does in a decoder in the encoder's state. -/

namespace Sys2Proof.Machine

/-- The instruction whose bytes are `pixelChunk` (44_stream_encoder.md R176 to R178). -/
def pixelInstr (H : Hash) (c : Cache) (prev p : Pixel) : Instr :=
  if cacheHit H c p then .index (H p)
  else if p.a = prev.a then
    if diffOk (delta p prev) then .diff (delta p prev).dr (delta p prev).dg (delta p prev).db
    else if lumaOk (delta p prev) then
      .luma (delta p prev).dg ((delta p prev).dr - (delta p prev).dg) ((delta p prev).db - (delta p prev).dg)
    else .rgb p.r p.g p.b
  else .rgba p.r p.g p.b p.a

theorem chunkBytes_pixelInstr (H : Hash) (c : Cache) (prev p : Pixel) :
    chunkBytes (pixelInstr H c prev p) = pixelChunk H c prev p := by
  simp only [pixelInstr, pixelChunk, apply_ite chunkBytes]

/-- Adding back the signed difference of two bytes gives the first (42_chunk_encode.md R131). -/
@[simp] theorem add8_s8_sub8 (x y : Byte) : add8 x (s8 (sub8 y x)) = y := by
  rw [add8, s8, sub8, BitVec.ofInt_toInt, add_sub_cancel]

theorem diffPixel_delta (prev p : Pixel) (ha : p.a = prev.a) :
    diffPixel prev (delta p prev).dr (delta p prev).dg (delta p prev).db = p := by
  simp [diffPixel, delta, ← ha]

theorem lumaPixel_delta (prev p : Pixel) (ha : p.a = prev.a) :
    lumaPixel prev (delta p prev).dg ((delta p prev).dr - (delta p prev).dg)
      ((delta p prev).db - (delta p prev).dg) = p := by
  simp [lumaPixel, delta, ← ha]

theorem rgbPixel_channels (prev p : Pixel) (ha : p.a = prev.a) : rgbPixel prev p.r p.g p.b = p := by
  simp [rgbPixel, ← ha]

/-- A ready decoder executes the chunk that its own `PREV` and `CACHE` give a pixel: it produces the pixel and stores it
exactly when the encoder does. -/
theorem Dec.exec_pixelInstr (H : Hash) (d : Dec) (p : Pixel) (hr : d.ready = true) :
    ∃ k, d.exec H (pixelInstr H d.cache d.prev p) =
      .ok (if cacheHit H d.cache p then d.codeUnstored p k else d.codeStored H p k) := by
  unfold pixelInstr
  by_cases hh : cacheHit H d.cache p = true
  · have hp : cacheLookup d.cache (H p) = p := by simpa [cacheHit] using hh
    rw [if_pos hh]
    exact ⟨1, (Dec.issue_ready d (.index (H p)) _ hr rfl).trans (by rw [hp, if_pos hh])⟩
  simp only [if_neg hh]
  by_cases ha : p.a = d.prev.a
  · rw [if_pos ha]
    by_cases hd : diffOk (delta p d.prev) = true
    · rw [if_pos hd]
      have hv := (diff_legal _ _ _).2 ((diffOk_iff _).1 hd)
      exact ⟨1, (Dec.issue_ready d _ _ hr hv).trans (by rw [diffPixel_delta d.prev p ha])⟩
    rw [if_neg hd]
    by_cases hl : lumaOk (delta p d.prev) = true
    · rw [if_pos hl]
      have hv := (luma_legal _ _ _).2 ((lumaOk_iff _).1 hl)
      exact ⟨2, (Dec.issue_ready d _ _ hr hv).trans (by rw [lumaPixel_delta d.prev p ha])⟩
    · rw [if_neg hl]
      exact ⟨4, (Dec.issue_ready d (.rgb p.r p.g p.b) _ hr rfl).trans (by rw [rgbPixel_channels d.prev p ha])⟩
  · rw [if_neg ha]
    exact ⟨5, Dec.issue_ready d (.rgba p.r p.g p.b p.a) _ hr rfl⟩

/-- A ready decoder executes a RUN with a legal count that fits the expected pixels. -/
theorem Dec.exec_run (H : Hash) (d : Dec) (count : Nat) (hr : d.ready = true) (h1 : 1 ≤ count) (h2 : count ≤ 62)
    (hn : d.cnt + count ≤ d.n) : d.exec H (.run count) = .ok ((d.produceTimes count d.prev).advance 1) := by
  rw [Dec.exec, Dec.repeatPrev, Dec.issue_ready d (.run count) _ hr ((run_legal count).2 ⟨h1, h2⟩),
    if_neg (by omega)]

end Sys2Proof.Machine
end

section
/-! SUPPORT. Lockstep (70_reset_and_hazards.md R247): the encoder's chunks keep a decoder in the encoder's state, short of
the pixels of the open run. -/

namespace Sys2Proof.Machine

/-- The decoder `d` has received everything that the encoder `e` emitted for the pixels `ps`: `PREV` and `CACHE` agree, and
the pixels of the open run are all that is missing from the output. -/
structure Lockstep (d : Dec) (e : Enc) (ps : List Pixel) : Prop where
  busy : d.status = .busy
  prev : d.prev = e.prev
  cache : d.cache = e.cache
  counted : d.cnt = d.outPixels.length
  pixels : d.outPixels ++ List.replicate e.run e.prev = ps

theorem lockstep_start (inp : List Byte) (n : Nat) : Lockstep (decStart inp n) encStart [] :=
  ⟨rfl, rfl, rfl, rfl, rfl⟩

theorem Lockstep.cnt_add_run {d : Dec} {e : Enc} {ps : List Pixel} (h : Lockstep d e ps) :
    d.cnt + e.run = ps.length := by
  simp [← h.pixels, h.counted]

/-- The chunks `is` are what the encoder emits from `e` to `e'`, and they carry the pixels `ps`: every decoder in lockstep
with `e` and expecting that many pixels executes them into lockstep with `e'`. -/
structure Carries (H : Hash) (e : Enc) (is : List Instr) (ps : List Pixel) (e' : Enc) : Prop where
  emitted : e'.outBytes = e.outBytes ++ is.flatMap chunkBytes
  received : ∀ d before, Lockstep d e before → before.length + ps.length ≤ d.n →
    ∃ d', Dec.Runs H d is d' ∧ Lockstep d' e' (before ++ ps)

theorem Carries.refl (H : Hash) (e : Enc) : Carries H e [] [] e where
  emitted := by simp
  received d before h _ := ⟨d, .nil d, by simpa using h⟩

theorem Carries.trans {H : Hash} {e e₁ e' : Enc} {is js : List Instr} {ps qs : List Pixel}
    (h : Carries H e is ps e₁) (h' : Carries H e₁ js qs e') : Carries H e (is ++ js) (ps ++ qs) e' where
  emitted := by simp [h'.emitted, h.emitted]
  received d before hd hn := by
    rw [List.length_append] at hn
    obtain ⟨d₁, hr, hd₁⟩ := h.received d before hd (by omega)
    obtain ⟨d', hr', hd'⟩ := h'.received d₁ _ hd₁ (by rw [hr.frame.1, List.length_append]; omega)
    exact ⟨d', hr.append hr', by simpa using hd'⟩

/-- The end of a pass writes `STATUS` alone. -/
theorem Carries.setStatus {H : Hash} {e e' : Enc} {is : List Instr} {ps : List Pixel} (h : Carries H e is ps e')
    (st : Status) : Carries H e is ps { e' with status := st } where
  emitted := h.emitted
  received d before hd hn := by
    obtain ⟨d', hr, hd'⟩ := h.received d before hd hn
    exact ⟨d', hr, hd'.busy, hd'.prev, hd'.cache, hd'.counted, hd'.pixels⟩

/-- A pixel equal to the previous one is held back in the run counter. -/
theorem carries_extend (H : Hash) (e : Enc) : Carries H e [] [e.prev] { e with run := e.run + 1 } where
  emitted := by simp
  received d before h _ :=
    ⟨d, .nil d, h.busy, h.prev, h.cache, h.counted, by simp [← h.pixels, List.replicate_succ']⟩

/-- A flushed run delivers the pixels held back. -/
theorem carries_flush (H : Hash) (e : Enc) (h1 : 1 ≤ e.run) (h2 : e.run ≤ 62) :
    Carries H e [.run e.run] [] { e with outBytes := e.outBytes ++ chunkBytes (.run e.run), run := 0 } where
  emitted := by simp
  received d before h hn := by
    have hc := h.cnt_add_run
    rw [List.length_nil] at hn
    refine ⟨_, .single (Dec.exec_run H d e.run ((d.ready_iff).2 ⟨h.busy, by omega⟩) h1 h2 (by omega)), ?_⟩
    exact ⟨by simp [h.busy], by simp [h.prev], by simp [h.cache], by simp [h.counted], by simp [h.prev, h.pixels]⟩

/-- With no run open, a differing pixel is delivered by its own chunk. -/
theorem carries_pixel (H : Hash) (e : Enc) (p : Pixel) (h0 : e.run = 0) :
    Carries H e [pixelInstr H e.cache e.prev p] [p] { e with
      cache := if cacheHit H e.cache p then e.cache else cacheStore e.cache (H p) p
      outBytes := e.outBytes ++ pixelChunk H e.cache e.prev p
      prev := p } where
  emitted := by simp [chunkBytes_pixelInstr]
  received d before h hn := by
    have hc := h.cnt_add_run
    rw [List.length_singleton] at hn
    obtain ⟨k, hx⟩ := Dec.exec_pixelInstr H d p ((d.ready_iff).2 ⟨h.busy, by omega⟩)
    rw [h.cache, h.prev] at hx
    have hp : d.outPixels = before := by simpa [h0] using h.pixels
    refine ⟨_, .single hx, ?_⟩
    by_cases hh : cacheHit H e.cache p = true
    · simp only [hh, if_true]
      exact ⟨h.busy, rfl, h.cache, by simp [h.counted], by simp [h0, hp]⟩
    · simp only [hh]
      exact ⟨h.busy, rfl, by simp [h.cache], by simp [h.counted], by simp [h0, hp]⟩

/-- Step 1 carries the pixel that extends the run, and leaves no run open after the last pixel. -/
theorem Enc.extendRun_carries (H : Hash) (last : Bool) (e : Enc) (h : e.run < 62) :
    ∃ e' is, e.extendRun last = .ok e' ∧ Carries H e is [e.prev] e' ∧ e'.status = e.status ∧ e'.run < 62 ∧
      (last = true → e'.run = 0) := by
  rw [Enc.extendRun_ok e last h]
  by_cases hf : e.run + 1 = 62 ∨ last = true
  · rw [if_pos hf]
    exact ⟨_, _, rfl, (carries_extend H e).trans (carries_flush H _ (by simp) (by simpa using h)), rfl, by simp,
      fun _ => rfl⟩
  · rw [if_neg hf]
    exact ⟨_, _, rfl, carries_extend H e, rfl, by simp; omega, fun hl => absurd (.inr hl) hf⟩

/-- Step 2 delivers the open run, if there is one. -/
theorem Enc.closeRun_carries (H : Hash) (e : Enc) (h : e.run < 62) :
    ∃ e' is, e.closeRun = .ok e' ∧ Carries H e is [] e' ∧ e'.status = e.status ∧ e'.run = 0 := by
  by_cases h0 : 0 < e.run
  · refine ⟨_, _, ?_, carries_flush H e h0 (by omega), rfl, rfl⟩
    simp [Enc.closeRun_ok e h, h0]
  · exact ⟨e, [], by simp [Enc.closeRun, Enc.runOpen, h0], Carries.refl H e, rfl, by omega⟩

/-- The body of `ENC_STEP` carries its pixel, and leaves no run open after the last one. -/
theorem Enc.body_carries (H : Hash) (p : Pixel) (last : Bool) (e : Enc) (h : e.run < 62) :
    ∃ e' is, e.body H p last = .ok e' ∧ Carries H e is [p] e' ∧ e'.status = e.status ∧ e'.run < 62 ∧
      (last = true → e'.run = 0) := by
  unfold Enc.body
  by_cases hp : p = e.prev
  · rw [if_pos hp, hp]
    exact Enc.extendRun_carries H last e h
  · obtain ⟨e₁, is, hclose, hcarry, hstatus, hrun⟩ := Enc.closeRun_carries H e h
    rw [if_neg hp, hclose]
    exact ⟨_, _, Enc.codePixel_ok H p e₁, hcarry.trans (carries_pixel H e₁ p hrun), hstatus, by simp [hrun],
      fun _ => hrun⟩

/-- `ENC_STEP` of a running pass carries its pixel; the pass runs on unless the pixel was the last one. -/
theorem Enc.step_carries (H : Hash) (p : Pixel) (last : Bool) (e : Enc) (hs : e.status = .busy) (h : e.run < 62) :
    ∃ e' is, e.step H p last = .ok e' ∧ Carries H e is [p] e' ∧ e'.run < 62 ∧
      (last = false → e'.status = .busy) ∧ (last = true → e'.run = 0) := by
  obtain ⟨e', is, hbody, hcarry, hstatus, hrun, hlast⟩ := Enc.body_carries H p last e h
  rw [Enc.step_busy H p last e e' hs hbody]
  cases last with
  | false => exact ⟨e', is, rfl, hcarry, hrun, fun _ => hstatus.trans hs, hlast⟩
  | true => exact ⟨_, is, rfl, hcarry.setStatus .done, hrun, nofun, hlast⟩

/-- The steps of a pass over all its pixels carry them, and leave no run open. -/
theorem encSteps_carries (H : Hash) (ps : List Pixel) (e : Enc) (hs : e.status = .busy) (h : e.run < 62)
    (h0 : ps = [] → e.run = 0) :
    ∃ e' is, encSteps H ps.length ps e = .ok e' ∧ Carries H e is ps e' ∧ e'.run = 0 := by
  induction ps generalizing e with
  | nil => exact ⟨e, [], rfl, Carries.refl H e, h0 rfl⟩
  | cons p rest ih =>
    obtain ⟨e₁, is, hstep, hcarry, hrun, hbusy, hlast⟩ := Enc.step_carries H p rest.isEmpty e hs h
    simp only [List.length_cons, encSteps, hstep]
    cases rest with
    | nil => exact ⟨e₁, is, rfl, hcarry, hlast rfl⟩
    | cons q rest =>
      obtain ⟨e', js, hsteps, hcarry', hrun'⟩ := ih e₁ (hbusy rfl) hrun nofun
      exact ⟨e', is ++ js, hsteps, hcarry.trans hcarry', hrun'⟩

/-- `ENC_PASS` completes with the bytes of chunks that every decoder right after a START executes into the pixel list. -/
theorem encPass_carries (H : Hash) (ps : List Pixel) :
    ∃ is, encPass H ps = .ok (is.flatMap chunkBytes) ∧ ∀ inp n, ps.length ≤ n →
      ∃ d, Dec.Runs H (decStart inp n) is d ∧ d.cnt = ps.length ∧ d.outPixels = ps := by
  obtain ⟨e, is, hsteps, hcarry, hrun⟩ := encSteps_carries H ps encStart rfl (by simp) (fun _ => rfl)
  refine ⟨is, ?_, fun inp n hn => ?_⟩
  · simp [encPass, hsteps, hcarry.emitted]
  · obtain ⟨d, hr, hd⟩ := hcarry.received _ [] (lockstep_start inp n) (by simpa using hn)
    have hp : d.outPixels = ps := by simpa [hrun] using hd.pixels
    exact ⟨d, hr, by rw [hd.counted, hp], hp⟩

end Sys2Proof.Machine
end

section
/-! The settled statements of the scope (00_scope.md). -/

namespace Sys2Proof

open Sys2Proof.Machine

/-- Settles O41: the encoder's chunks, executed in order from the decoder's START, produce the pixel list, and `DEC_PASS` of
their bytes executes exactly those chunks. -/
theorem decodePassInvertsEncodePass : Obligations.DecodePassInvertsEncodePass := by
  intro H ps
  obtain ⟨is, hpass, hruns⟩ := encPass_carries H ps
  obtain ⟨d, hr, hcnt, hpixels⟩ := hruns (is.flatMap chunkBytes) ps.length le_rfl
  exact ⟨_, hpass, hpixels ▸ decPass_of_runs H is ps.length d hr hcnt⟩

end Sys2Proof
end

section
/-! SUPPORT. The codec in the other direction: the chunk the decoder reads has the bytes it was read from. -/

namespace Sys2Proof

/-- The encoder gives a well-formed chunk's bytes. -/
theorem encode_of_legal (i : Instr) (h : i.violation = none) : encode i = .ok (chunkBytes i) := by
  rw [encode, h]

theorem byteOf_indexField (b0 : Byte) (h : kind b0 = .index) : byteOf (indexField b0).val = b0 := by
  revert b0; decide

theorem chunkBytes_diffFields (b0 : Byte) (h : kind b0 = .diff) : chunkBytes (diffFields b0) = [b0] := by
  revert b0; decide

theorem chunkBytes_runField (b0 : Byte) (h : kind b0 = .run) : chunkBytes (.run (runField b0)) = [b0] := by
  revert b0; decide

theorem lumaGreen_leadByte (b0 : Byte) (h : kind b0 = .luma) :
    byteOf (0x80 + ((field b0 0 6 - lumaGreenBias) + lumaGreenBias)) = b0 := by
  revert b0; decide

theorem lumaNibbles_byte (b1 : Byte) :
    byteOf (((field b1 4 4 - lumaRedBlueBias) + lumaRedBlueBias) * 16 +
      ((field b1 0 4 - lumaRedBlueBias) + lumaRedBlueBias)) = b1 := by
  revert b1; decide

theorem chunkBytes_lumaFields (b0 b1 : Byte) (h : kind b0 = .luma) : chunkBytes (lumaFields b0 b1) = [b0, b1] := by
  rw [lumaFields, chunkBytes, lumaGreen_leadByte b0 h, lumaNibbles_byte]

theorem eq_tagRgb_of_kind (b0 : Byte) (h : kind b0 = .rgb) : b0 = tagRgb := by
  revert b0; decide

theorem eq_tagRgba_of_kind (b0 : Byte) (h : kind b0 = .rgba) : b0 = tagRgba := by
  revert b0; decide

/-- What the parser gives has the bytes it was parsed from (43_chunk_decode.md R157). -/
theorem chunkBytes_of_parseChunk (b0 : Byte) (payload : List Byte) (i : Instr)
    (h : parseChunk (b0 :: payload) = .ok i) : chunkBytes i = b0 :: payload := by
  rcases parseChunk_cases b0 payload with ⟨r, g, b, hk, rfl, hp⟩ | ⟨r, g, b, a, hk, rfl, hp⟩ | ⟨hk, rfl, hp⟩ |
    ⟨hk, rfl, hp⟩ | ⟨b1, hk, rfl, hp⟩ | ⟨hk, rfl, hp⟩ | ⟨_, hp⟩ <;> cases hp.symm.trans h
  · rw [eq_tagRgb_of_kind b0 hk, chunkBytes]
  · rw [eq_tagRgba_of_kind b0 hk, chunkBytes]
  · rw [chunkBytes, byteOf_indexField b0 hk]
  · exact chunkBytes_diffFields b0 hk
  · exact chunkBytes_lumaFields b0 b1 hk
  · exact chunkBytes_runField b0 hk

/-- What decodes is well-formed, and its bytes are the front of the sequence it was read from. -/
theorem decode_ok (bs rest : List Byte) (i : Instr) (h : decode bs = .ok (i, rest)) :
    i.violation = none ∧ bs = chunkBytes i ++ rest := by
  cases bs with
  | nil => cases h
  | cons b0 tail =>
    by_cases hl : chunkLen b0 ≤ tail.length + 1
    · obtain ⟨j, hd, hp, hv, _⟩ := decode_of_le b0 tail hl
      obtain ⟨rfl, rfl⟩ : j = i ∧ (b0 :: tail).drop (chunkLen b0) = rest := by simpa using hd.symm.trans h
      obtain ⟨k, hk⟩ := Nat.exists_eq_succ_of_ne_zero (chunkLen_pos b0).ne'
      rw [hk, List.take_succ_cons] at hp
      exact ⟨hv, by rw [chunkBytes_of_parseChunk b0 _ j hp, hk, List.drop_succ_cons, List.cons_append,
        List.take_append_drop]⟩
    · rw [decode, if_pos (by rw [List.length_cons]; omega)] at h
      cases h

/-- An operand out of range is in a DIFF, a LUMA or a RUN, and the violation is that kind's own. -/
theorem Instr.violation_of_illegal (i : Instr) (h : i.violation ≠ none) :
    ∃ c, i.violation = some c ∧
      (i.kind = .diff ∧ c = .diffRange ∨ i.kind = .luma ∧ c = .lumaRange ∨ i.kind = .run ∧ c = .runRange) := by
  obtain ⟨c, hc⟩ := Option.ne_none_iff_exists'.1 h
  refine ⟨c, hc, ?_⟩
  cases i with
  | rgb | rgba | index => exact absurd rfl h
  | diff dr dg db =>
    rw [Instr.violation] at hc
    split at hc <;> cases hc
    exact .inl ⟨rfl, rfl⟩
  | luma dg drg dbg =>
    rw [Instr.violation] at hc
    split at hc <;> cases hc
    exact .inr (.inl ⟨rfl, rfl⟩)
  | run count =>
    rw [Instr.violation] at hc
    split at hc <;> cases hc
    exact .inr (.inr ⟨rfl, rfl⟩)

end Sys2Proof
end

section
/-! SUPPORT. An operand out of range, whose turn a step is, what the moves but a START keep, and that a turn is a matter of
one agent alone. -/

namespace Sys2Proof.Machine

/-- In sequence, a chunk with an operand out of range is error entry with its kind's own violation. -/
theorem exec_illegal (i : Instr) (s : State) (hr : s.dec.ready = true) (h : i.violation ≠ none) :
    ∃ c t, i.violation = some c ∧ exec i s = .next t ∧ decoderFaults s t (.contract c) ∧
      (i.kind = .diff ∧ c = .diffRange ∨ i.kind = .luma ∧ c = .lumaRange ∨ i.kind = .run ∧ c = .runRange) := by
  obtain ⟨c, hv, hk⟩ := i.violation_of_illegal h
  obtain ⟨t, ht, hf⟩ := resolveDec_error s (.contract c)
  exact ⟨c, t, hv, (exec_violation i s c hr hv).trans ht, hf, hk⟩

/-- A decoder that moves by itself takes the step. -/
theorem step_decoder (s : State) (h : s.decoderMoves = true) : step s = decoderTurn exec s := by
  rw [step, turn, if_pos h]

/-- The three turns a step can be: the decoder's, a running `ENC_PASS`'s, or the oldest host operation's. -/
theorem step_turns (s t : State) (h : step s = .next t) :
    (s.decoderMoves = true ∧ decoderTurn exec s = .next t) ∨
    s.resolveEnc (s.enc.passStep codecHash) = .next t ∨
    ∃ op rest, s.host = op :: rest ∧ s.passRunning = false ∧ perform exec op { s with host := rest } = .next t := by
  cases hd : s.decoderMoves with
  | true => exact .inl ⟨rfl, step_decoder s hd ▸ h⟩
  | false =>
    cases hm : s.enc.canMove with
    | true => exact .inr (.inl (step_encoder s hd hm ▸ h))
    | false =>
      cases hh : s.host with
      | nil => cases (step_stuck s hd hm hh).symm.trans h
      | cons op rest =>
        have hp := s.passRunning_of_still hd hm
        exact .inr (.inr ⟨op, rest, rfl, hp, step_queued s op rest hh hp ▸ h⟩)

/-- A `FAULT` stays a `FAULT`, of the same or another error. -/
def Status.FaultSticks (a b : Status) : Prop := (∃ e, a = .fault e) → ∃ e, b = .fault e

theorem Status.faultSticks_collect (a : Status) : a.FaultSticks a.collect := by
  rintro ⟨e, rfl⟩; exact ⟨e, rfl⟩

/-- An encoder operation, resolved, leaves a faulted encoder in `FAULT` if it raises out of sequence. -/
theorem State.resolveEnc_faultSticks (s t : State) (r : Raises Enc)
    (hr : s.enc.status ≠ .busy → r = .error (.contract .sequence)) (h : s.resolveEnc r = .next t) :
    s.enc.status.FaultSticks t.enc.status := by
  rintro ⟨e, he⟩
  rw [hr (by simp [he])] at h
  cases h
  exact ⟨_, rfl⟩

/-- A turn of an `ENC_PASS` that is not running is out of sequence. -/
theorem Enc.passStep_not_busy (H : Hash) (e : Enc) (h : e.status ≠ .busy) :
    e.passStep H = .error (.contract .sequence) := by
  unfold Enc.passStep
  cases e.pixIn with
  | nil => rfl
  | cons p rest => simp [Enc.step_not_busy H p _ e h]

/-- What every move of the decoder but a START keeps: the pass inputs (10_state.md R27), and a `FAULT` (R28). -/
structure Dec.Keeps (d d' : Dec) : Prop where
  mem : d'.mem = d.mem
  len : d'.len = d.len
  n : d'.n = d.n
  fault : d.status.FaultSticks d'.status

theorem Dec.Keeps.refl (d : Dec) : Dec.Keeps d d := ⟨rfl, rfl, rfl, id⟩

theorem Dec.keeps_raise (d : Dec) (e : Err) : Dec.Keeps d (d.raise e) := ⟨rfl, rfl, rfl, fun _ => ⟨e, rfl⟩⟩

theorem Dec.keeps_collect (d : Dec) : Dec.Keeps d { d with status := d.status.collect } :=
  ⟨rfl, rfl, rfl, d.status.faultSticks_collect⟩

theorem Dec.keeps_endPass (d : Dec) : Dec.Keeps d d.endPass := by
  refine ⟨d.endPass_mem, d.endPass_len, d.endPass_n, ?_⟩
  rintro ⟨e, he⟩
  exact ⟨e, by rw [d.endPass_of_not_busy (by simp [he]), he]⟩

/-- A chunk's turn keeps what every move but a START keeps. -/
theorem chunkTurn_keeps (s t : State) (hr : s.dec.ready = true) (h : chunkTurn exec s = .next t) :
    Dec.Keeps s.dec t.dec := by
  obtain ⟨hb, hc⟩ := s.dec.ready_iff.1 hr
  rcases chunkTurn_cases s t hb hc h with ⟨c, rfl, _⟩ | ⟨i, _, d, _, hx, rfl, _⟩
  · exact s.dec.keeps_raise _
  · obtain ⟨_, _, _, hmem, hlen, hn, _⟩ := Dec.exec_ok _ _ _ _ hx
    refine ⟨d.endPass_mem.trans hmem, d.endPass_len.trans hlen, d.endPass_n.trans hn, ?_⟩
    rintro ⟨e, he⟩
    cases hb.symm.trans he


/-- A decoder's own turn keeps what every move but a START keeps. -/
theorem decoderTurn_keeps (s t : State) (hb : s.dec.status = .busy) (h : decoderTurn exec s = .next t) :
    Dec.Keeps s.dec t.dec := by
  unfold decoderTurn at h
  split at h
  · rename_i hc
    exact chunkTurn_keeps s t (s.dec.ready_iff.2 ⟨hb, hc⟩) h
  · cases h
    exact s.dec.keeps_endPass

/-- What a host operation keeps in an agent it does not START. -/
theorem perform_keeps (op : HostOp) (s t : State) (h : perform exec op s = .next t) :
    (startsDecoder op = false → Dec.Keeps s.dec t.dec) ∧
    (startsEncoder op = false → s.enc.status.FaultSticks t.enc.status) := by
  cases op with
  | encStart | encPass =>
    cases h
    exact ⟨fun _ => .refl _, nofun⟩
  | encStep p last =>
    have hk := s.resolveEnc_faultSticks t _ (Enc.step_not_busy codecHash p last s.enc) h
    obtain ⟨e, he, _⟩ := s.resolveEnc_next (s.enc.step codecHash p last)
    cases he.symm.trans h
    exact ⟨fun _ => .refl _, fun _ => hk⟩
  | encCollect =>
    cases h
    exact ⟨fun _ => .refl _, fun _ => s.enc.status.faultSticks_collect⟩
  | decStart | decPass =>
    cases h
    exact ⟨nofun, fun _ => id⟩
  | decStep =>
    rw [perform] at h
    split at h
    · rename_i hr
      have hk := chunkTurn_keeps s t hr h
      obtain ⟨d, hd⟩ := chunkTurn_next s
      cases hd.symm.trans h
      exact ⟨fun _ => hk, fun _ => id⟩
    · cases h
      exact ⟨fun _ => s.dec.keeps_raise _, fun _ => id⟩
  | decCollect =>
    cases h
    exact ⟨fun _ => s.dec.keeps_collect, fun _ => id⟩

/-- No operation that `starts` marks is performed by the next step: a pass is running, or the oldest one is none. -/
def State.StartsNone (s : State) (starts : HostOp → Bool) : Prop :=
  s.passRunning = true ∨ ∀ op rest, s.host = op :: rest → starts op = false

/-- What a step keeps in an agent it does not START. -/
theorem step_keeps (s t : State) (h : step s = .next t) :
    (s.StartsNone startsDecoder → Dec.Keeps s.dec t.dec) ∧
    (s.StartsNone startsEncoder → s.enc.status.FaultSticks t.enc.status) := by
  rcases step_turns s t h with ⟨hm, ht⟩ | ht | ⟨op, rest, hh, hp, ht⟩
  · have hk := decoderTurn_keeps s t (s.decoderMoves_iff.1 hm).1 ht
    have he := (step_decoder_moves s t hm h).2.1
    exact ⟨fun _ => hk, fun _ => by rw [he]; exact id⟩
  · have hk := s.resolveEnc_faultSticks t _ (Enc.passStep_not_busy codecHash s.enc) ht
    obtain ⟨e, he, _⟩ := s.resolveEnc_next (s.enc.passStep codecHash)
    cases he.symm.trans ht
    exact ⟨fun _ => .refl _, fun _ => hk⟩
  · have hk := perform_keeps op _ t ht
    have hs (starts : HostOp → Bool) (hn : s.StartsNone starts) : starts op = false :=
      hn.elim (fun hr => by simp [hp] at hr) (fun hn => hn op rest hh)
    exact ⟨fun hn => hk.1 (hs _ hn), fun hn => hk.2 (hs _ hn)⟩

/-- A chunk's turn is a matter of the decoder alone: one outcome for every state around it. -/
theorem chunkTurn_local (d : Dec) : ∃ d', ∀ s : State, s.dec = d → chunkTurn exec s = .next { s with dec := d' } := by
  cases hf : d.fetch with
  | error e => exact ⟨d.raise e, by rintro s rfl; simp only [chunkTurn, hf]; rfl⟩
  | ok i =>
    cases hx : d.exec codecHash i with
    | ok d' => exact ⟨d'.endPass, by rintro s rfl; simp only [chunkTurn, hf, exec_eq, hx]; rfl⟩
    | error e => exact ⟨(d.raise e).endPass, by rintro s rfl; simp only [chunkTurn, hf, exec_eq, hx]; rfl⟩

/-- So is its whole turn. -/
theorem decoderTurn_local (d : Dec) :
    ∃ d', ∀ s : State, s.dec = d → decoderTurn exec s = .next { s with dec := d' } := by
  by_cases hc : d.cnt < d.n
  · obtain ⟨d', hd⟩ := chunkTurn_local d
    exact ⟨d', by rintro s rfl; rw [decoderTurn, if_pos hc, hd s rfl]⟩
  · exact ⟨d.endPass, by rintro s rfl; rw [decoderTurn, if_neg hc]⟩

/-- A turn of an `ENC_PASS` is a matter of the encoder alone. -/
theorem encoderTurn_local (e : Enc) :
    ∃ e', ∀ s : State, s.enc = e → s.resolveEnc (s.enc.passStep codecHash) = .next { s with enc := e' } := by
  cases hr : e.passStep codecHash with
  | ok e' => exact ⟨e', by rintro s rfl; rw [hr]; rfl⟩
  | error err => exact ⟨e.raise err, by rintro s rfl; rw [hr]; rfl⟩

end Sys2Proof.Machine
end

section
/-! SUPPORT. The machine's invariant, agent by agent: a START makes it hold, and every move keeps it. -/

namespace Sys2Proof.Machine

theorem decInv_start (H : Hash) (inp : List Byte) (n : Nat) : decInv H (decStart inp n) :=
  ⟨memoryLoad_wf inp [] 0 rfl, fun a ha => memoryRead_load_outside inp [] 0 a rfl (.inr (by simpa using ha)),
    fun _ => ⟨Nat.zero_le _, Nat.zero_le _, rfl, cacheInv_zero H⟩, nofun, nofun⟩

theorem decInv_raise (H : Hash) (d : Dec) (e : Err) (h : decInv H d) (he : streamError e = true) :
    decInv H (d.raise e) := by
  obtain ⟨hwf, hout, _⟩ := h
  refine ⟨hwf, hout, by simp, by simp, ?_⟩
  rintro _ ⟨⟩
  exact he

theorem decInv_endPass (H : Hash) (d : Dec) (h : decInv H d) : decInv H d.endPass := by
  by_cases hb : d.status = .busy
  · rcases d.endPass_cases hb with ⟨_, hd⟩ | ⟨hc, hl, hd⟩ | ⟨_, _, hd⟩ <;> rw [hd]
    · exact h
    · obtain ⟨hwf, hout, hrun, _⟩ := h
      have hrun := hrun (.inl hb)
      exact ⟨hwf, hout, fun _ => hrun, fun _ => ⟨Nat.le_antisymm hrun.2.1 hc, hl⟩, nofun⟩
    · exact decInv_raise H d _ h rfl
  · rwa [d.endPass_of_not_busy hb]

/-- A chunk that lies inside the stream and does not raise keeps the decoder's invariant. -/
theorem decInv_exec (H : Hash) (i : Instr) (d d' : Dec) (h : decInv H d) (hx : d.exec H i = .ok d')
    (hl : d.bp + i.length ≤ d.len) : decInv H d' := by
  obtain ⟨hwf, hout, hrun, _⟩ := h
  obtain ⟨hr, _, hstatus, hmem, hlen, hn, hbp, _, hcnt, _⟩ := Dec.exec_ok H i d d' hx
  obtain ⟨hcnt', hpixels⟩ := Dec.exec_pixels H i d d' hx
  have hb : d'.status = .busy := hstatus.trans (d.ready_iff.1 hr).1
  obtain ⟨_, _, hcount, hcache⟩ := hrun (.inl (d.ready_iff.1 hr).1)
  refine ⟨hmem ▸ hwf, by rw [hmem, hlen]; exact hout, fun _ => ⟨by omega, by omega, by omega, ?_⟩, ?_, ?_⟩
  · exact Dec.exec_cacheInv H i d d' hx hcache
  · simp [hb]
  · simp [hb]

theorem decInv_collect (H : Hash) (d : Dec) (h : decInv H d) : decInv H { d with status := d.status.collect } := by
  cases hs : d.status with
  | busy | fault => simpa [decInv, hs, Status.collect] using h
  | idle | done =>
    obtain ⟨hwf, hout, _⟩ := h
    exact ⟨hwf, hout, by simp [Status.collect], by simp [Status.collect], by simp [Status.collect]⟩

/-- Every move of the decoder keeps its invariant. -/
theorem DecMove.inv {d d' : Dec} (hm : DecMove d d') (h : decInv codecHash d) : decInv codecHash d' := by
  cases hm with
  | same => exact h
  | start inp n => exact decInv_start _ inp n
  | startPass inp n => exact decInv_endPass _ _ (decInv_start _ inp n)
  | raise e he _ => exact decInv_raise _ d e h he
  | chunk i d' hx hl => exact decInv_endPass _ d' (decInv_exec _ i d d' h hx hl)
  | passEnd _ _ => exact decInv_endPass _ d h
  | collect => exact decInv_collect _ d h

theorem encInv_start (H : Hash) : encInv H encStart :=
  ⟨fun _ => ⟨by decide, cacheInv_zero H⟩, nofun, nofun⟩

theorem encInv_passStart (H : Hash) (ps : List Pixel) : encInv H (encPassStart ps) :=
  ⟨fun _ => ⟨by simp, cacheInv_zero H⟩, fun _ => rfl, by cases ps <;> simp⟩

/-- `ENC_STEP` keeps the encoder's cache sound: it stores a pixel in its own hash slot or nothing. -/
theorem Enc.body_cacheInv (H : Hash) (p : Pixel) (last : Bool) (e e' : Enc) (h : e.run < 62)
    (hb : e.body H p last = .ok e') (hc : cacheInv H e.cache) : cacheInv H e'.cache := by
  cases (Enc.body_ok H p last e h).symm.trans hb
  split
  · split <;> exact hc
  · dsimp only
    split
    · exact hc
    · exact cacheInv_store H e.cache p hc

/-- A pixel coded in sequence keeps the encoder's invariant. -/
theorem encInv_step (H : Hash) (p : Pixel) (last : Bool) (e e' : Enc) (h : encInv H e)
    (hs : e.step H p last = .ok e') : encInv H e' := by
  by_cases hb : e.status = .busy
  · obtain ⟨hrun, hcache⟩ := h.1 hb
    obtain ⟨e₁, _, hbody, _, hstatus, hrun₁, hlast⟩ := Enc.body_carries H p last e hrun
    have hcache₁ := Enc.body_cacheInv H p last e e₁ hrun hbody hcache
    rw [hb] at hstatus
    cases (Enc.step_busy H p last e e₁ hb hbody).symm.trans hs
    cases last with
    | false => exact ⟨fun _ => ⟨hrun₁, hcache₁⟩, by simp [hstatus], by simp [hstatus]⟩
    | true => exact ⟨nofun, fun _ => hlast rfl, nofun⟩
  · cases (Enc.step_not_busy H p last e hb).symm.trans hs

/-- Out of sequence is the only way a pixel raises. -/
theorem Enc.step_error (H : Hash) (p : Pixel) (last : Bool) (e : Enc) (err : Err) (h : encInv H e)
    (hs : e.step H p last = .error err) : err = .contract .sequence := by
  by_cases hb : e.status = .busy
  · obtain ⟨e', _, hok, _⟩ := Enc.step_carries H p last e hb (h.1 hb).1
    cases hok.symm.trans hs
  · cases (Enc.step_not_busy H p last e hb).symm.trans hs
    rfl

theorem encInv_collect (H : Hash) (e : Enc) (h : encInv H e) : encInv H { e with status := e.status.collect } := by
  cases hs : e.status with
  | busy | fault => simpa [encInv, hs, Status.collect] using h
  | idle | done => exact ⟨by simp [Status.collect], by simp [Status.collect], by simp [Status.collect]⟩

/-- Every move of the encoder keeps its invariant. -/
theorem EncMove.inv {e e' : Enc} (hm : EncMove e e') (h : encInv codecHash e) : encInv codecHash e' := by
  cases hm with
  | start => exact encInv_start _
  | startPass ps => exact encInv_passStart _ ps
  | step p last e' hs => exact encInv_step _ p last e e' h hs
  | passStep p last e' rest hs => exact encInv_step _ p last e e' h hs
  | raise err p last hs =>
    refine ⟨nofun, nofun, ?_⟩
    rintro _ ⟨⟩
    exact Enc.step_error _ p last e err h hs
  | collect => exact encInv_collect _ e h

end Sys2Proof.Machine
end

section
/-! The settled statements of the state (10_state.md). -/

namespace Sys2Proof

open Sys2Proof.Machine

/-- Settles O26: the bytes of a well-formed chunk begin with a lead byte of its kind, and each field is read back from them. -/
theorem decodeOfEncodeIsIdentity : Obligations.DecodeOfEncodeIsIdentity := by
  intro i rest h
  have hv := (wellFormed_iff i).1 h
  exact ⟨chunkBytes i, encode_of_legal i hv, chunkBytes_length i, decode_chunkBytes i rest hv⟩

/-- Settles O54: a step is a move of one agent, and each kind of move keeps that agent's invariant. -/
theorem everyStepKeepsInvariant : Obligations.EveryStepKeepsInvariant := by
  rintro s t ⟨henc, hdec⟩ h
  rcases (step_moves s t h).1 with ⟨hm, he⟩ | ⟨hm, hd⟩
  · exact ⟨by rw [he]; exact henc, hm.inv hdec⟩
  · exact ⟨hm.inv henc, by rw [hd]; exact hdec⟩

/-- Settles O13: in sequence, an ill-formed chunk is error entry with its operand's violation, which its kind alone fixes. -/
theorem operandOutOfRangeRaises : Obligations.OperandOutOfRangeRaises := by
  intro s hb hc
  have hr := s.dec.ready_iff.2 ⟨hb, hc⟩
  refine ⟨fun dr dg db h => ?_, fun dg drg dbg h => ?_, fun count h => ?_, fun i h => exec_illegal i s hr fun hv => ?_⟩
  · obtain ⟨_, t, _, ht, hf, ⟨_, rfl⟩ | ⟨⟨⟩, _⟩ | ⟨⟨⟩, _⟩⟩ := exec_illegal _ s hr (mt (diff_legal dr dg db).1 h)
    exact ⟨t, ht, hf⟩
  · obtain ⟨_, t, _, ht, hf, ⟨⟨⟩, _⟩ | ⟨_, rfl⟩ | ⟨⟨⟩, _⟩⟩ := exec_illegal _ s hr (mt (luma_legal dg drg dbg).1 h)
    exact ⟨t, ht, hf⟩
  · obtain ⟨_, t, _, ht, hf, ⟨⟨⟩, _⟩ | ⟨⟨⟩, _⟩ | ⟨_, rfl⟩⟩ := exec_illegal _ s hr (mt (run_legal count).1 h)
    exact ⟨t, ht, hf⟩
  · rw [(wellFormed_iff i).2 hv] at h
    cases h

/-- Settles O17: whatever a step does to an agent it does not START, a `FAULT` stays. -/
theorem faultIsLeftOnlyByStart : Obligations.FaultIsLeftOnlyByStart := by
  intro s t h
  obtain ⟨hdec, henc⟩ := step_keeps s t h
  exact ⟨fun hf hn => (hdec hn).fault hf, fun hf hn => henc hn hf⟩

/-- Settles O21: every move of the decoder but a START keeps the pass inputs. -/
theorem inputBufferIsImmutable : Obligations.InputBufferIsImmutable := by
  intro s t h hn
  obtain ⟨hmem, hlen, hcount, _⟩ := (step_keeps s t h).1 hn
  exact ⟨hmem, hlen, hcount⟩

/-- Settles O27: the parser gives a well-formed chunk whose bytes are those it was parsed from. -/
theorem encodeOfDecodeIsIdentity : Obligations.EncodeOfDecodeIsIdentity := by
  intro bs rest i h
  obtain ⟨hv, hbs⟩ := decode_ok bs rest i h
  exact ⟨(wellFormed_iff i).2 hv, chunkBytes i, encode_of_legal i hv, hbs⟩

/-- Settles O55: an agent's own turn has one outcome for every state around the agent. -/
theorem agentsDoNotInterfere : Obligations.AgentsDoNotInterfere := by
  refine ⟨fun s t e hq hb h => ?_, fun s t d hq hs hd h => ?_⟩
  · obtain ⟨d', hlocal⟩ := decoderTurn_local s.dec
    have hm : s.decoderMoves = true := s.decoderMoves_iff.2 ⟨hb, hq⟩
    have hstep (e : Enc) : step { s with enc := e } = .next { s with enc := e, dec := d' } :=
      (step_decoder { s with enc := e } hm).trans (hlocal _ rfl)
    cases (hstep s.enc).symm.trans h
    exact ⟨rfl, hstep e⟩
  · obtain ⟨e', hlocal⟩ := encoderTurn_local s.enc
    have hstill (d : Dec) (hd : d.status ≠ .busy) : State.decoderMoves { s with dec := d } = false := by
      rw [Bool.eq_false_iff, ne_eq, State.decoderMoves_iff]
      exact fun hm => hd hm.1
    cases hm : s.enc.canMove with
    | false =>
      have hh : s.host = [] := hq.resolve_right (by simp [hm])
      cases (step_stuck s (hstill s.dec hs) hm hh).symm.trans h
    | true =>
      have hstep (d : Dec) (hd : d.status ≠ .busy) :
          step { s with dec := d } = .next { s with enc := e', dec := d } :=
        (step_encoder _ (hstill d hd) hm).trans (hlocal _ rfl)
      cases (hstep s.dec hs).symm.trans h
      exact ⟨rfl, hstep d hd⟩

/-- Settles O1: both resets are their START's values, and every slot of the cache is the zero pixel. -/
theorem resetLeavesStreamStartValues : Obligations.ResetLeavesStreamStartValues :=
  ⟨rfl, rfl, cacheLookup_replicate _, rfl, rfl, rfl, rfl, cacheLookup_replicate _, rfl, rfl, rfl⟩

/-- Settles O53: reset is a START of each agent, the decoder's with an empty stream. -/
theorem invariantHoldsAtReset : Obligations.InvariantHoldsAtReset :=
  ⟨encInv_start codecHash, decInv_start codecHash [] 0⟩

end Sys2Proof
end

section
/-! SUPPORT. How an agent moves when a step does not START it. -/

namespace Sys2Proof.Machine

/-- The ways a step can change the decoder without a START. -/
inductive Dec.Continues (d : Dec) : Dec → Prop
  | same : Continues d d
  | raise (e : Err) : Continues d (d.raise e)
  | chunk (i : Instr) (d' : Dec) : d.exec codecHash i = .ok d' → Continues d d'.endPass
  | passEnd : Continues d d.endPass
  | collect : Continues d { d with status := d.status.collect }

/-- The ways a step can change the encoder without a START. -/
inductive Enc.Continues (e : Enc) : Enc → Prop
  | same : Continues e e
  | raise (err : Err) : Continues e (e.raise err)
  | step (p : Pixel) (last : Bool) (e' : Enc) : e.step codecHash p last = .ok e' → Continues e e'
  | passStep (p : Pixel) (last : Bool) (e' : Enc) (rest : List Pixel) :
    e.step codecHash p last = .ok e' → Continues e { e' with pixIn := rest }
  | collect : Continues e { e with status := e.status.collect }

/-- A chunk's turn is error entry or the chunk's effect. -/
theorem chunkTurn_continues (s t : State) (hr : s.dec.ready = true) (h : chunkTurn exec s = .next t) :
    s.dec.Continues t.dec ∧ t.enc = s.enc := by
  obtain ⟨hb, hc⟩ := s.dec.ready_iff.1 hr
  rcases chunkTurn_cases s t hb hc h with ⟨c, rfl, _⟩ | ⟨i, _, d, _, hx, rfl, _⟩
  · exact ⟨.raise _, rfl⟩
  · exact ⟨.chunk i d hx, rfl⟩

/-- A decoder's own turn is a chunk's turn or the end of the pass. -/
theorem decoderTurn_continues (s t : State) (hb : s.dec.status = .busy) (h : decoderTurn exec s = .next t) :
    s.dec.Continues t.dec ∧ t.enc = s.enc := by
  unfold decoderTurn at h
  split at h
  · rename_i hc
    exact chunkTurn_continues s t (s.dec.ready_iff.2 ⟨hb, hc⟩) h
  · cases h
    exact ⟨.passEnd, rfl⟩

/-- An encoder operation, resolved, is its own effect or error entry. -/
theorem State.resolveEnc_continues (s t : State) (r : Raises Enc) (hr : ∀ e, r = .ok e → s.enc.Continues e)
    (h : s.resolveEnc r = .next t) : t.dec = s.dec ∧ s.enc.Continues t.enc := by
  obtain ⟨e, he, hok | ⟨err, _, rfl⟩⟩ := s.resolveEnc_next r <;> cases he.symm.trans h
  · exact ⟨rfl, hr e hok⟩
  · exact ⟨rfl, .raise err⟩

/-- A turn of an `ENC_PASS` that does not raise codes a pixel. -/
theorem Enc.passStep_continues (e e' : Enc) (h : e.passStep codecHash = .ok e') : e.Continues e' := by
  unfold Enc.passStep at h
  split at h
  · cases h
  · split at h
    · rename_i hs
      cases h
      exact .passStep _ _ _ _ hs
    · cases h

/-- How a host operation moves an agent it does not START. -/
theorem perform_continues (op : HostOp) (s t : State) (h : perform exec op s = .next t) :
    (startsDecoder op = false → s.dec.Continues t.dec) ∧ (startsEncoder op = false → s.enc.Continues t.enc) := by
  cases op with
  | encStart | encPass =>
    cases h
    exact ⟨fun _ => .same, nofun⟩
  | encStep p last =>
    obtain ⟨hd, he⟩ := s.resolveEnc_continues t _ (.step p last) h
    exact ⟨fun _ => hd ▸ .same, fun _ => he⟩
  | encCollect =>
    cases h
    exact ⟨fun _ => .same, fun _ => .collect⟩
  | decStart | decPass =>
    cases h
    exact ⟨nofun, fun _ => .same⟩
  | decStep =>
    rw [perform] at h
    split at h
    · rename_i hr
      obtain ⟨hd, he⟩ := chunkTurn_continues s t hr h
      exact ⟨fun _ => hd, fun _ => he ▸ .same⟩
    · cases h
      exact ⟨fun _ => .raise _, fun _ => .same⟩
  | decCollect =>
    cases h
    exact ⟨fun _ => .collect, fun _ => .same⟩

/-- How a step moves an agent it does not START. -/
theorem step_continues (s t : State) (h : step s = .next t) :
    (s.StartsNone startsDecoder → s.dec.Continues t.dec) ∧ (s.StartsNone startsEncoder → s.enc.Continues t.enc) := by
  rcases step_turns s t h with ⟨hm, ht⟩ | ht | ⟨op, rest, hh, hp, ht⟩
  · obtain ⟨hd, he⟩ := decoderTurn_continues s t (s.decoderMoves_iff.1 hm).1 ht
    exact ⟨fun _ => hd, fun _ => he ▸ .same⟩
  · obtain ⟨hd, he⟩ := s.resolveEnc_continues t _ s.enc.passStep_continues ht
    exact ⟨fun _ => hd ▸ .same, fun _ => he⟩
  · obtain ⟨hd, he⟩ := perform_continues op _ t ht
    have hs (starts : HostOp → Bool) (hn : s.StartsNone starts) : starts op = false :=
      hn.elim (fun hr => by simp [hp] at hr) (fun hn => hn op rest hh)
    exact ⟨fun hn => hd (hs _ hn), fun hn => he (hs _ hn)⟩

end Sys2Proof.Machine
end

section
/-! SUPPORT. The output streams grow at their end (20_memory.md R52, R54): the encoder's for every `RUN`, in range or not. -/

namespace Sys2Proof.Machine

theorem Enc.flushRun_outBytes (e e' : Enc) (h : e.flushRun = .ok e') : e.outBytes <+: e'.outBytes := by
  unfold Enc.flushRun at h
  cases hr : encRun e.run with
  | error err => rw [hr] at h; cases h
  | ok bs =>
    rw [hr] at h
    cases h
    exact List.prefix_append _ bs

theorem Enc.extendRun_outBytes (last : Bool) (e e' : Enc) (h : e.extendRun last = .ok e') :
    e.outBytes <+: e'.outBytes := by
  unfold Enc.extendRun at h
  split at h
  · exact Enc.flushRun_outBytes { e with run := e.run + 1 } e' h
  · cases h
    exact List.prefix_rfl

theorem Enc.closeRun_outBytes (e e' : Enc) (h : e.closeRun = .ok e') : e.outBytes <+: e'.outBytes := by
  unfold Enc.closeRun at h
  split at h
  · exact Enc.flushRun_outBytes e e' h
  · cases h
    exact List.prefix_rfl

theorem Enc.codePixel_outBytes (H : Hash) (p : Pixel) (e e' : Enc) (h : e.codePixel H p = .ok e') :
    e.outBytes <+: e'.outBytes := by
  cases (Enc.codePixel_ok H p e).symm.trans h
  exact List.prefix_append _ _

/-- Whichever of its steps `ENC_STEP` takes, it emits after what is there. -/
theorem Enc.body_outBytes (H : Hash) (p : Pixel) (last : Bool) (e e' : Enc) (h : e.body H p last = .ok e') :
    e.outBytes <+: e'.outBytes := by
  unfold Enc.body at h
  split at h
  · exact Enc.extendRun_outBytes last e e' h
  · cases hc : e.closeRun with
    | error err => rw [hc] at h; cases h
    | ok e₁ =>
      rw [hc] at h
      exact (Enc.closeRun_outBytes e e₁ hc).trans (Enc.codePixel_outBytes H p e₁ e' h)

theorem Enc.step_outBytes (H : Hash) (p : Pixel) (last : Bool) (e e' : Enc) (h : e.step H p last = .ok e') :
    e.outBytes <+: e'.outBytes := by
  by_cases hs : e.status = .busy
  · cases hb : e.body H p last with
    | error err => simp [Enc.step, hs, hb] at h
    | ok e₁ =>
      cases (Enc.step_busy H p last e e₁ hs hb).symm.trans h
      cases last <;> exact Enc.body_outBytes H p _ e e₁ hb
  · cases (Enc.step_not_busy H p last e hs).symm.trans h

/-- Without a START, `OUT_BYTES` only grows. -/
theorem Enc.Continues.outBytes {e e' : Enc} (hm : e.Continues e') : e.outBytes <+: e'.outBytes := by
  cases hm with
  | same | raise | collect => exact List.prefix_rfl
  | step p last _ hs => exact Enc.step_outBytes _ p last e e' hs
  | passStep p last e₁ _ hs => exact Enc.step_outBytes _ p last e e₁ hs

/-- Without a START, `OUT_PIXELS` only grows, short of a `FAULT` (45_stream_decoder.md R204). -/
theorem Dec.Continues.outPixels {d d' : Dec} (hm : d.Continues d') (hf : ∀ e, d'.status ≠ .fault e) :
    d.outPixels <+: d'.outPixels := by
  cases hm with
  | same | collect => exact List.prefix_rfl
  | raise e => exact absurd rfl (hf e)
  | chunk i d₁ hx =>
    obtain ⟨_, _, _, _, _, _, _, _, _, ps, hps, _⟩ := Dec.exec_ok _ i d d₁ hx
    rw [d₁.endPass_outPixels hf, hps]
    exact List.prefix_append _ ps
  | passEnd =>
    rw [d.endPass_outPixels hf]

end Sys2Proof.Machine
end

section
/-! The settled statements of the memory (20_memory.md). -/

namespace Sys2Proof

open Sys2Proof.Machine

/-- Settles O22: however a step moves an agent it does not START, what it produces goes after what is there. -/
theorem outputsOnlyGrow : Obligations.OutputsOnlyGrow := by
  intro s t h
  obtain ⟨hdec, henc⟩ := step_continues s t h
  exact ⟨fun hn hf => List.prefix_iff_exists_eq_append.1 ((hdec hn).outPixels hf),
    fun hn => List.prefix_iff_exists_eq_append.1 (henc hn).outBytes⟩

end Sys2Proof
end

section
/-! SUPPORT. Dispatch by the lead byte's number (30_encoding.md R80, R81), and the decoder on too few bytes and on written words. -/

namespace Sys2Proof

/-- The two top bits of a byte, as a number. -/
theorem field_topBits (b : Byte) : field b 6 2 = b.toNat / 64 := by
  have hb := b.isLt
  simp only [field, BitVec.extractLsb'_toNat, Nat.shiftRight_eq_div_pow]
  omega

/-- Dispatch on the number of the lead byte: the two tags first, then the quarter of the byte range it lies in. -/
theorem kind_eq_of_toNat (b : Byte) : kind b =
    if b.toNat = 0xFE then .rgb
    else if b.toNat = 0xFF then .rgba
    else if b.toNat / 64 = 0 then .index
    else if b.toNat / 64 = 1 then .diff
    else if b.toNat / 64 = 2 then .luma
    else .run := by
  have hrgb : b = tagRgb ↔ b.toNat = 0xFE := BitVec.toNat_inj.symm
  have hrgba : b = tagRgba ↔ b.toNat = 0xFF := BitVec.toNat_inj.symm
  simp only [kind, field_topBits, hrgb, hrgba]

/-- A lead byte of a given kind asks for that kind's length. -/
theorem kind_and_chunkLen {b : Byte} {k : Kind} (h : kind b = k) : kind b = k ∧ chunkLen b = kindLength k :=
  ⟨h, by rw [chunkLen_eq_kindLength, h]⟩

/-- Fewer bytes than the lead byte asks for give `FE_TRUNCATED_CHUNK` (45_stream_decoder.md R200). -/
theorem decode_of_lt (b0 : Byte) (rest : List Byte) (h : (b0 :: rest).length < chunkLen b0) :
    decode (b0 :: rest) = .error (.format .truncatedChunk) := by
  simp only [decode, if_pos h]

/-- Bytes that the formats of 30_encoding.md R86 give for a well-formed chunk decode to it. -/
theorem decode_of_chunkBytes_eq {i : Instr} (bs : List Byte) {rest : List Byte} (h : i.violation = none)
    (hb : chunkBytes i = bs) : decode (bs ++ rest) = .ok (i, rest) :=
  hb ▸ decode_chunkBytes i rest h

end Sys2Proof
end

section
/-! The settled statements of the encoding (30_encoding.md). -/

namespace Sys2Proof

/-- Settles O25: with as many bytes as the lead byte asks for the parser succeeds, so only too few can fail. -/
theorem decodeFailsOnLengthOnly : Obligations.DecodeFailsOnLengthOnly := by
  intro bs
  cases bs with
  | nil => exact .inr (.inl ⟨rfl, rfl⟩)
  | cons b0 rest =>
    rcases Nat.lt_or_ge (b0 :: rest).length (chunkLen b0) with hlt | hle
    · exact .inr (.inr ⟨b0, rest, rfl, hlt, decode_of_lt b0 rest hlt⟩)
    · obtain ⟨i, hi, _⟩ := decode_of_le b0 rest hle
      exact .inl ⟨i, _, hi⟩

/-- Settles O23: the lead byte's number fixes the kind, and the kind the length. -/
theorem leadByteMap : Obligations.LeadByteMap := by
  intro b
  refine ⟨fun h => kind_and_chunkLen ?_, fun h => kind_and_chunkLen ?_, fun h => kind_and_chunkLen ?_,
    fun h => kind_and_chunkLen ?_, fun h => kind_and_chunkLen ?_, fun h => kind_and_chunkLen ?_⟩ <;>
    (rw [kind_eq_of_toNat]; simp (disch := omega) only [if_pos, if_neg])

/-- Settles O24: each word is the bytes of the instruction it stands for, and those decode back. -/
theorem writtenWordsDecode : Obligations.WrittenWordsDecode :=
  ⟨decode_of_chunkBytes_eq [0xFE, 0xC8, 0x64, 0x32] rfl rfl,
    decode_of_chunkBytes_eq [0xFF, 0x01, 0x02, 0x03, 0x04] rfl rfl,
    decode_of_chunkBytes_eq [0x0B] rfl rfl,
    decode_of_chunkBytes_eq [0x74] rfl (by decide),
    decode_of_chunkBytes_eq [0x9F, 0xBA] rfl (by decide),
    decode_of_chunkBytes_eq [0xFD] rfl rfl⟩

end Sys2Proof
end

section
/-! SUPPORT. Big-endian integers, and the header built and parsed (40_header_and_framing.md R101, R102, R111). -/

namespace Sys2Proof.Machine

theorem unbe32_lt (b0 b1 b2 b3 : Byte) : unbe32 b0 b1 b2 b3 < 2 ^ 32 := by
  rw [unbe32]
  omega

/-- Each byte of `BE32` is a base-256 digit of the number, and `UNBE32` sums the digits up again. -/
theorem unbe32_be32 (v : Nat) (h : v < 2 ^ 32) :
    unbe32 (BitVec.ofNat 8 (v / 2 ^ 24)) (BitVec.ofNat 8 (v / 2 ^ 16)) (BitVec.ofNat 8 (v / 2 ^ 8))
      (BitVec.ofNat 8 v) = v := by
  simp only [unbe32, BitVec.toNat_ofNat]
  omega

/-- Each byte is recovered as the base-256 digit it was in the sum. -/
theorem be32_unbe32 (b0 b1 b2 b3 : Byte) : be32 (unbe32 b0 b1 b2 b3) = [b0, b1, b2, b3] := by
  simp only [be32, unbe32, List.cons.injEq, ← BitVec.toNat_inj, BitVec.toNat_ofNat, and_true]
  omega

@[simp] theorem headerBytes_length (hd : Header) : (headerBytes hd).length = 14 := rfl

theorem Header.legal_iff (hd : Header) : Header.legal hd = true ↔
    hd.width < 2 ^ 32 ∧ hd.height < 2 ^ 32 ∧ (hd.channels = 3 ∨ hd.channels = 4) ∧
      (hd.colorspace = 0 ∨ hd.colorspace = 1) := by
  simp [Header.legal, and_assoc]

theorem HeaderFields.header_legal (f : HeaderFields) : Header.legal f.header = true := by
  refine (Header.legal_iff _).2 ⟨f.width.isLt, f.height.isLt, ?_, ?_⟩
  · cases hc : f.channels <;> simp [HeaderFields.header, Channels.toNat, hc]
  · have := f.colorspace.isLt
    simp only [HeaderFields.header]
    omega

/-- `BUILD_HEADER` of a legal header's fields is its bytes. -/
theorem buildHeader_of_legal (hd : Header) (h : Header.legal hd = true) :
    buildHeader hd.width hd.height hd.channels hd.colorspace = .ok (headerBytes hd) := by
  simp [buildHeader, headerOf, h]

/-- `BUILD_HEADER` completes on no other integers than a legal header's fields. -/
theorem buildHeader_of_illegal (w h c cs : Int)
    (hill : ∀ hd : Header, Header.legal hd = true →
      ¬ (w = hd.width ∧ h = hd.height ∧ c = hd.channels ∧ cs = hd.colorspace)) :
    buildHeader w h c cs = .error (.contract .headerField) := by
  unfold buildHeader headerOf
  by_cases hpos : 0 ≤ w ∧ 0 ≤ h ∧ 0 ≤ c ∧ 0 ≤ cs
  · simp only [if_pos hpos]
    exact if_neg fun hl => hill _ hl (by simp [hpos])
  · simp only [if_neg hpos]

/-- The checks after the magic pass the tags of a legal header. -/
theorem headerOfFields_of_legal (hd : Header) (h : Header.legal hd = true) :
    headerOfFields hd.width hd.height (BitVec.ofNat 8 hd.channels) (BitVec.ofNat 8 hd.colorspace) = .ok hd := by
  obtain ⟨w, h', c, cs⟩ := hd
  obtain ⟨_, _, rfl | rfl, rfl | rfl⟩ := (Header.legal_iff _).1 h <;> rfl

/-- `PARSE_HEADER` reads a legal header back from its bytes, whatever follows them. -/
theorem parseHeader_headerBytes (hd : Header) (rest : List Byte) (h : Header.legal hd = true) :
    parseHeader (headerBytes hd ++ rest) = .ok hd := by
  obtain ⟨hw, hh, _⟩ := (Header.legal_iff hd).1 h
  change headerOfFields (unbe32 _ _ _ _) (unbe32 _ _ _ _) _ _ = _
  rw [unbe32_be32 _ hw, unbe32_be32 _ hh, headerOfFields_of_legal hd h]

/-- Fewer than 14 bytes match no header. -/
theorem parseHeader_of_short (bs : List Byte) (h : bs.length < 14) :
    parseHeader bs = .error (.format .headerShort) := by
  unfold parseHeader
  split
  · simp only [List.length_cons] at h
    omega
  · rfl

theorem exists_four_bytes (bs : List Byte) (h : 4 ≤ bs.length) :
    ∃ b0 b1 b2 b3 rest, bs = b0 :: b1 :: b2 :: b3 :: rest := by
  obtain _ | ⟨b0, _ | ⟨b1, _ | ⟨b2, _ | ⟨b3, rest⟩⟩⟩⟩ := bs
  case cons.cons.cons.cons => exact ⟨b0, b1, b2, b3, rest, rfl⟩
  all_goals simp at h

/-- On 14 bytes or more `PARSE_HEADER` checks the magic, then the tags in bytes 12 and 13, and reads the two
words between. -/
theorem parseHeader_of_long (bs : List Byte) (h : 14 ≤ bs.length) : ∃ w0 w1 w2 w3 h0 h1 h2 h3 c cs,
    (bs.drop 4).take 4 = [w0, w1, w2, w3] ∧ (bs.drop 8).take 4 = [h0, h1, h2, h3] ∧
    bs[12]? = some c ∧ bs[13]? = some cs ∧
    parseHeader bs = if bs.take 4 ≠ magic then .error (.format .badMagic)
      else headerOfFields (unbe32 w0 w1 w2 w3) (unbe32 h0 h1 h2 h3) c cs := by
  obtain ⟨m0, m1, m2, m3, bs, rfl⟩ := exists_four_bytes bs (by omega)
  obtain ⟨w0, w1, w2, w3, bs, rfl⟩ := exists_four_bytes bs (by simp at h; omega)
  obtain ⟨h0, h1, h2, h3, bs, rfl⟩ := exists_four_bytes bs (by simp at h; omega)
  obtain _ | ⟨c, _ | ⟨cs, rest⟩⟩ := bs
  case cons.cons => exact ⟨_, _, _, _, _, _, _, _, _, _, rfl, rfl, rfl, rfl, rfl⟩
  all_goals simp at h

end Sys2Proof.Machine
end

section
/-! SUPPORT. The framing of a file and its round trip (40_header_and_framing.md R106 to R108), and how many pixels a
decode pass gives (45_stream_decoder.md R191). -/

namespace Sys2Proof.Machine

@[simp] theorem chunkStream_framed (hd : Header) (body : List Byte) :
    chunkStream (headerBytes hd ++ body ++ eosMarker) = body := by
  have hlen : (headerBytes hd ++ body ++ eosMarker).length - Config.headerLen - eosMarker.length = body.length := by
    simp only [List.length_append, headerBytes_length, Config.headerLen]
    omega
  rw [chunkStream, hlen, List.append_assoc, List.drop_left' (headerBytes_length hd), List.take_left]

@[simp] theorem fileTail_framed (front : List Byte) : fileTail (front ++ eosMarker) = eosMarker := by
  rw [fileTail, List.length_append, Nat.add_sub_cancel, List.drop_left]

/-- A file long enough for a header and a marker is its first 14 bytes, its chunk stream and its tail. -/
theorem file_eq_framed (f : List Byte) (h : 22 ≤ f.length) : f = f.take 14 ++ chunkStream f ++ fileTail f := by
  have htail : fileTail f = (f.drop 14).drop (f.length - 14 - 8) := by
    rw [List.drop_drop, fileTail]
    congr 1
    simp only [eosMarker, List.length_cons, List.length_nil]
    omega
  have hbody : chunkStream f = (f.drop 14).take (f.length - 14 - 8) := rfl
  rw [htail, hbody, List.append_assoc, List.take_append_drop, List.take_append_drop]

/-- With header, length and marker in order, `DECODE_FILE` is `DEC_PASS` on the chunk stream. -/
theorem decodeFile_of_framed (H : Hash) (f : List Byte) (hd : Header) (hp : parseHeader f = .ok hd)
    (hl : 22 ≤ f.length) (ht : fileTail f = eosMarker) :
    decodeFile H f = (decPass H (chunkStream f) (hd.width * hd.height)).map (hd, ·) := by
  have hlen : ¬ f.length < Config.headerLen + eosMarker.length := Nat.not_lt.2 hl
  simp only [decodeFile, hp, if_neg hlen, ht, ne_eq, not_true_eq_false, if_false]
  cases decPass H (chunkStream f) (hd.width * hd.height) <;> rfl

/-- `DECODE_FILE` of a framed byte sequence is the frame's header and `DEC_PASS` on the bytes between. -/
theorem decodeFile_framed (H : Hash) (hd : Header) (body : List Byte) (h : Header.legal hd = true) :
    decodeFile H (headerBytes hd ++ body ++ eosMarker) = (decPass H body (hd.width * hd.height)).map (hd, ·) := by
  have hparse : parseHeader (headerBytes hd ++ body ++ eosMarker) = .ok hd := by
    rw [List.append_assoc, parseHeader_headerBytes hd _ h]
  have hlen : 22 ≤ (headerBytes hd ++ body ++ eosMarker).length := by
    simp only [List.length_append, headerBytes_length, eosMarker, List.length_cons, List.length_nil]
    omega
  rw [decodeFile_of_framed H _ hd hparse hlen (fileTail_framed _), chunkStream_framed]

/-- `ENCODE_FILE` of as many pixels as the header counts completes, and `DECODE_FILE` gives header and pixels
back (R108). -/
theorem decodeFile_encodeFile (H : Hash) (fields : HeaderFields) (ps : List Pixel)
    (hlen : ps.length = fields.width.val * fields.height.val) :
    ∃ f, encodeFile H fields ps = .ok f ∧ decodeFile H f = .ok (fields.header, ps) := by
  obtain ⟨body, hbody, hpass⟩ := decodePassInvertsEncodePass H ps
  have hn : fields.header.width * fields.header.height = ps.length := hlen.symm
  refine ⟨_, encodeFile_of_length H fields ps body hlen hbody, ?_⟩
  rw [decodeFile_framed H fields.header body fields.header_legal, hn, hpass]
  rfl

/-- A decoder step that does not raise is the effect of a chunk. -/
theorem Dec.step_ok (H : Hash) (d d' : Dec) (h : d.step H = .ok d') : ∃ i, d.exec H i = .ok d' := by
  unfold Dec.step at h
  split at h
  · split at h
    · exact ⟨_, h⟩
    · cases h
  · cases h

/-- The loop of `DEC_PASS`, given a turn for each pixel still expected, ends with as many pixels as expected. -/
theorem decSteps_outPixels_length (H : Hash) (k : Nat) (d d' : Dec) (h : decSteps H k d = .ok d')
    (hcount : d.outPixels.length = d.cnt) (hle : d.cnt ≤ d.n) (hk : d.n ≤ d.cnt + k) :
    d'.outPixels.length = d.n := by
  induction k generalizing d with
  | zero =>
    cases h
    omega
  | succ k ih =>
    by_cases hc : d.cnt < d.n
    · rw [decSteps, if_pos hc] at h
      cases hs : d.step H with
      | error e => rw [hs] at h; cases h
      | ok d₁ =>
        rw [hs] at h
        obtain ⟨i, hx⟩ := Dec.step_ok H d d₁ hs
        obtain ⟨_, _, _, _, _, hn, _, hlt, hle₁, ps, hps, hcnt⟩ := Dec.exec_ok H i d d₁ hx
        have hcount₁ : d₁.outPixels.length = d₁.cnt := by rw [hps, List.length_append, hcount, hcnt]
        rw [← hn]
        exact ih d₁ h hcount₁ (by omega) (by omega)
    · cases (decSteps_of_complete H (k + 1) d (by omega)).symm.trans h
      omega

/-- A decode pass that does not raise gives exactly the expected pixels. -/
theorem decPass_length (H : Hash) (inp : List Byte) (n : Nat) (ps : List Pixel) (h : decPass H inp n = .ok ps) :
    ps.length = n := by
  unfold decPass at h
  split at h
  · cases h
  · rename_i d hd
    split at h
    · cases h
    · cases h
      exact decSteps_outPixels_length H n _ d hd rfl (Nat.zero_le _) (by simp)

/-- What `DECODE_FILE` gives is the header and the pixels of `DEC_PASS` on the chunk stream. -/
theorem decodeFile_ok (H : Hash) (f : List Byte) (hd : Header) (ps : List Pixel)
    (h : decodeFile H f = .ok (hd, ps)) :
    parseHeader f = .ok hd ∧ decPass H (chunkStream f) (hd.width * hd.height) = .ok ps := by
  unfold decodeFile at h
  split at h
  · cases h
  rename_i hparse
  split at h
  · cases h
  split at h
  · cases h
  split at h
  · cases h
  rename_i hpass
  cases h
  exact ⟨hparse, hpass⟩

/-- A decoded file has the pixels its header counts. -/
theorem decodeFile_length (H : Hash) (f : List Byte) (hd : Header) (ps : List Pixel)
    (h : decodeFile H f = .ok (hd, ps)) : ps.length = hd.width * hd.height :=
  decPass_length H _ _ _ (decodeFile_ok H f hd ps h).2

end Sys2Proof.Machine
end

section
/-! SUPPORT. The pixel list of an image (40_header_and_framing.md R113, R114). -/

namespace Sys2Proof.Machine

/-- The rows of an image without alpha, padded (R113). -/
theorem paddedRows_three (rows : List (List (Byte × Byte × Byte))) :
    paddedRows (.threeChannels rows) = rows.map (List.map fun p => ⟨p.1, p.2.1, p.2.2, 255⟩) := rfl

/-- The pixel list of an image whose rows have one width is its padded rows one after the other: how long it is, the
rows it is cut into, and where each pixel stands (R113, R114). -/
theorem imagePixels_row_major (width : Nat) (image : Image) (h : ∀ r ∈ paddedRows image.data, r.length = width) :
    (imagePixels image).length = (paddedRows image.data).length * width ∧
    rowsOfPixels width (paddedRows image.data).length (imagePixels image) = paddedRows image.data ∧
    ∀ row column, pixelAt width (imagePixels image) row column =
      ((paddedRows image.data)[row]?).bind fun r => r[column]? :=
  ⟨(flatten_row_major _ width h).1, rowsOfPixels_flatten width _ h, pixelAt_flatten width _ h⟩

end Sys2Proof.Machine
end

section
/-! The settled statements of header and framing (40_header_and_framing.md). -/

namespace Sys2Proof

open Sys2Proof.Machine

/-- Settles O50: the bytes are the base-256 digits of the number. -/
theorem bigEndianBytesAndInverse : Obligations.BigEndianBytesAndInverse := by
  refine ⟨fun v h => ⟨_, _, _, _, rfl, ?_, ?_, ?_, ?_, unbe32_be32 v h⟩,
    fun b0 b1 b2 b3 => ⟨unbe32_lt b0 b1 b2 b3, be32_unbe32 b0 b1 b2 b3⟩⟩
  · rw [BitVec.toNat_ofNat]
    omega
  all_goals exact BitVec.toNat_ofNat _ _

/-- Settles O47: legal fields are a legal header, which is built and read back. -/
theorem headerRoundTrip : Obligations.HeaderRoundTrip := by
  intro w h c cs hw hh hc hcs
  have hlegal : Header.legal ⟨w, h, c, cs⟩ = true := (Header.legal_iff _).2 ⟨hw, hh, hc, hcs⟩
  refine ⟨_, buildHeader_of_legal _ hlegal, headerBytes_length _, ?_⟩
  simpa using parseHeader_headerBytes _ [] hlegal

/-- Settles O48: integers in range are a legal header's fields, and those out of range are no legal header's. -/
theorem buildHeaderLaysOutFields : Obligations.BuildHeaderLaysOutFields := by
  intro w h c cs
  split
  · rename_i hrange
    lift w to Nat using by omega
    lift h to Nat using by omega
    lift c to Nat using by omega
    lift cs to Nat using by omega
    exact buildHeader_of_legal ⟨w, h, c, cs⟩ ((Header.legal_iff _).2 (by dsimp only; omega))
  · rename_i hrange
    refine buildHeader_of_illegal w h c cs fun hd hlegal heq => hrange ?_
    have := (Header.legal_iff hd).1 hlegal
    omega

/-- Settles O49: fewer than 14 bytes match no header; on 14 the checks are made in turn, and the words read are those
that stand there. -/
theorem headerDefectsAreReportedInOrder : Obligations.HeaderDefectsAreReportedInOrder := by
  intro bs
  split
  · exact parseHeader_of_short bs ‹_›
  rename_i hlen
  obtain ⟨w0, w1, w2, w3, h0, h1, h2, h3, c, cs, hw, hh, hc, hcs, hparse⟩ :=
    parseHeader_of_long bs (Nat.not_lt.1 hlen)
  simp only [hparse, hc, hcs, hw, hh, headerOfFields, ne_eq, Option.some.injEq]
  split
  · rfl
  split
  · rfl
  rename_i hchannels
  split
  · rfl
  rename_i hspace
  refine ⟨_, rfl, be32_unbe32 _ _ _ _, be32_unbe32 _ _ _ _, unbe32_lt _ _ _ _, unbe32_lt _ _ _ _, by simp,
    (or_iff_not_and_not.2 hchannels).imp (congrArg BitVec.toNat) (congrArg BitVec.toNat), by simp,
    (or_iff_not_and_not.2 hspace).imp (congrArg BitVec.toNat) (congrArg BitVec.toNat)⟩

/-- Settles O52: the checks of `DECODE_FILE` in turn; past them the chunk stream lies between header and marker. -/
theorem fileDefectsAreReportedInOrder : Obligations.FileDefectsAreReportedInOrder := by
  intro H f
  cases hp : parseHeader f with
  | error e => simp [decodeFile, hp]
  | ok hd =>
    have hsum : Config.headerLen + eosMarker.length = 22 := rfl
    dsimp only
    split
    · rename_i hl
      simp [decodeFile, hp, hsum, hl]
    rename_i hl
    split
    · rename_i ht
      have ht : fileTail f ≠ eosMarker := ht
      simp [decodeFile, hp, hsum, hl, ht]
    · rename_i ht
      have ht : fileTail f = eosMarker := not_not.1 ht
      refine ⟨chunkStream f, ?_, ?_⟩
      · have := file_eq_framed f (Nat.not_lt.1 hl)
        rwa [ht] at this
      · rw [decodeFile_of_framed H f hd hp (Nat.not_lt.1 hl) ht]
        cases decPass H (chunkStream f) (hd.width * hd.height) <;> rfl

/-- Settles O59: `ENC_PASS` completes on every pixel list. -/
theorem encodeFileLaysOutOrRejects : Obligations.EncodeFileLaysOutOrRejects := by
  intro H f ps
  split
  · rename_i hne
    exact if_pos hne
  · rename_i heq
    obtain ⟨body, hbody, _⟩ := decodePassInvertsEncodePass H ps
    exact ⟨_, body, buildHeader_fields f, hbody, encodeFile_of_length H f ps body (not_not.1 heq) hbody⟩

/-- Settles O51: header and chunk stream are each read back from between the frame. -/
theorem fileRoundTrip : Obligations.FileRoundTrip :=
  ⟨decodeFile_encodeFile,
    fun H w h image hlen => decodeFile_encodeFile H ⟨w, h, imageChannels image, imageColorSpace image⟩ _ hlen⟩

/-- Settles O60: an image's pixel list is its padded rows one after the other, and a decoded file has the pixels its
header counts. -/
theorem imagePixelsAreRowMajorAndPadded : Obligations.ImagePixelsAreRowMajorAndPadded := by
  refine ⟨fun width rows tag h => imagePixels_row_major width ⟨.fourChannels rows, tag⟩ h,
    fun width rows tag h => ?_, fun width height ps h => ?_, fun H f => ?_⟩
  · have hpadded : ∀ r ∈ paddedRows (.threeChannels rows), r.length = width := by simpa [paddedRows_three] using h
    obtain ⟨hlen, hcut, hat⟩ := imagePixels_row_major width ⟨.threeChannels rows, tag⟩ hpadded
    simp only [paddedRows_three, List.length_map, List.getElem?_map] at hlen hcut hat
    refine ⟨hlen, hcut, fun row column => (hat row column).trans ?_⟩
    cases rows[row]? <;> simp
  · obtain ⟨hheight, hwidth, hflat⟩ := rowsOfPixels_spec width height ps h
    refine ⟨hheight, hwidth, hflat, fun row column => ?_⟩
    have := pixelAt_flatten width _ hwidth row column
    rwa [hflat] at this
  · cases hf : decodeFile H f with
    | error e => simp [decodeImage, hf]
    | ok r =>
      obtain ⟨hd, ps⟩ := r
      have hlen : ps.length = hd.height * hd.width := (decodeFile_length H f hd ps hf).trans (Nat.mul_comm _ _)
      obtain ⟨hheight, hwidth, hflat⟩ := rowsOfPixels_spec hd.width hd.height ps hlen
      exact ⟨_, by simp [decodeImage, hf], hheight, hwidth, hflat⟩

end Sys2Proof
end

section
/-! SUPPORT. The cache called with any integer (41_pixel_cache.md R122, R123): which integers are slots, and what a lookup
reads after a store. -/

namespace Sys2Proof.Machine

theorem toIndex_eq_none_iff (i : Int) : toIndex i = none ↔ ¬ (0 ≤ i ∧ i ≤ 63) := by
  have h63 : i ≤ 63 ↔ i < 64 := Int.le_iff_lt_add_one
  simp [toIndex, h63]

/-- A slot number is the integer it stands for. -/
theorem exists_index_of_range (i : Int) (h : 0 ≤ i ∧ i ≤ 63) : ∃ k : Index, i = (k.val : Int) :=
  ⟨⟨i.toNat, by omega⟩, (Int.toNat_of_nonneg h.1).symm⟩

@[simp] theorem cacheLookupAt_val (c : Cache) (k : Index) : cacheLookupAt c k.val = .ok (cacheLookup c k) := by
  simp [cacheLookupAt, toIndex_val]

@[simp] theorem cacheStoreAt_val (c : Cache) (k : Index) (p : Pixel) :
    cacheStoreAt c k.val p = .ok (cacheStore c k p) := by
  simp [cacheStoreAt, toIndex_val]

theorem cacheLookupAt_out_of_range (c : Cache) (i : Int) (h : ¬ (0 ≤ i ∧ i ≤ 63)) :
    cacheLookupAt c i = .error (.contract .cacheIndex) := by
  simp [cacheLookupAt, (toIndex_eq_none_iff i).2 h]

theorem cacheStoreAt_out_of_range (c : Cache) (i : Int) (p : Pixel) (h : ¬ (0 ≤ i ∧ i ≤ 63)) :
    cacheStoreAt c i p = .error (.contract .cacheIndex) := by
  simp [cacheStoreAt, (toIndex_eq_none_iff i).2 h]

/-- A store is seen at its own slot alone: elsewhere, in range or not, a lookup answers as before. -/
theorem cacheLookupAt_store_ne (c : Cache) (k : Index) (p : Pixel) (j : Int) (hj : j ≠ k.val) :
    cacheLookupAt (cacheStore c k p) j = cacheLookupAt c j := by
  by_cases hr : 0 ≤ j ∧ j ≤ 63
  · obtain ⟨l, rfl⟩ := exists_index_of_range j hr
    have hl : l ≠ k := fun e => hj (by rw [e])
    simp [hl]
  · rw [cacheLookupAt_out_of_range _ j hr, cacheLookupAt_out_of_range c j hr]

@[simp] theorem cacheStore_cacheLookup (c : Cache) (k : Index) : cacheStore c k (cacheLookup c k) = c :=
  Vector.set_getElem_self k.isLt

end Sys2Proof.Machine
end

section
/-! The settled statements of the pixel cache (41_pixel_cache.md). -/

namespace Sys2Proof

open Sys2Proof.Machine

/-- Settles O32: an integer in the range is a slot number, where the store is the machine's own; outside, neither
operation finds a slot. -/
theorem cacheStoreOverwritesOneSlot : Obligations.CacheStoreOverwritesOneSlot := by
  intro c i p
  split
  · rename_i hr
    obtain ⟨k, rfl⟩ := exists_index_of_range i hr
    refine ⟨cacheStore c k p, cacheStoreAt_val c k p, by simp, cacheLookupAt_store_ne c k p, fun h => ?_⟩
    have hheld : cacheLookup c k = p := by simpa using h
    rw [← hheld, cacheStore_cacheLookup]
  · rename_i hr
    exact ⟨cacheStoreAt_out_of_range c i p hr, cacheLookupAt_out_of_range c i hr⟩

/-- Settles O33: a channel below 256 is its byte's number, and the sum is one of natural numbers, so nothing wraps. -/
theorem hashIsTheWeightedSumModulo64 : Obligations.HashIsTheWeightedSumModulo64 := by
  intro r g b a hr hg hb ha
  simp only [codecHash, BitVec.toNat_ofNat]
  rw [Nat.mod_eq_of_lt hr, Nat.mod_eq_of_lt hg, Nat.mod_eq_of_lt hb, Nat.mod_eq_of_lt ha]

end Sys2Proof
end

section
/-! SUPPORT. Bytes of integers in range and parsers on a chunk's own bytes (42_chunk_encode.md R136 to R140), and signed
byte differences (R131, R133). -/

namespace Sys2Proof.Machine

/-- The byte of an integer in [0,255] is that integer. -/
theorem byteOf_toNat (v : Int) (h0 : 0 ≤ v) (h1 : v < 256) : ((byteOf v).toNat : Int) = v := by
  simp only [byteOf, BitVec.toNat_ofInt]
  omega

theorem encIndex_out_of_range (idx : Int) (h : ¬ (0 ≤ idx ∧ idx ≤ 63)) :
    encIndex idx = .error (.contract .indexRange) := by
  simp only [encIndex, (toIndex_eq_none_iff idx).2 h]

theorem encDiff_ok (d : Delta) (h : diffOk d = true) : encDiff d = .ok (chunkBytes (.diff d.dr d.dg d.db)) :=
  if_pos h

theorem encDiff_out_of_range (d : Delta) (h : ¬ diffOk d = true) : encDiff d = .error (.contract .diffRange) :=
  if_neg h

theorem encLuma_ok (d : Delta) (h : lumaOk d = true) :
    encLuma d = .ok (chunkBytes (.luma d.dg (d.dr - d.dg) (d.db - d.dg))) :=
  if_pos h

theorem encLuma_out_of_range (d : Delta) (h : ¬ lumaOk d = true) : encLuma d = .error (.contract .lumaRange) :=
  if_neg h

theorem encRun_out_of_range (count : Int) (h : ¬ (1 ≤ count ∧ count ≤ 62)) :
    encRun count = .error (.contract .runRange) :=
  if_neg (mt (inRange_iff 1 62 count).1 h)

/-- The bytes of a well-formed chunk meet the contract of its kind's parser (43_chunk_decode.md R150). -/
theorem chunkBytes_meetsContract (i : Instr) (h : i.violation = none) : meetsContract i.kind (chunkBytes i) := by
  obtain ⟨b0, payload, hb, hk, _⟩ := chunkBytes_leadByte i ((wellFormed_iff i).2 h)
  exact ⟨chunkBytes_length i, b0, payload, hb, hk⟩

/-- A parser given the bytes of a well-formed chunk of its kind works on that chunk. -/
theorem parsed_chunkBytes {α : Type} (i : Instr) (f : Instr → Raises α) (h : i.violation = none) :
    parsed i.kind (chunkBytes i) f = f i := by
  obtain ⟨j, _, _, hj, hf⟩ := parsed_of_meets i.kind (chunkBytes i) f (chunkBytes_meetsContract i h)
  have hij : i = j := Except.ok.inj ((parseChunk_chunkBytes i h).symm.trans hj)
  rw [hf, hij]

theorem s8_bounds (b : Byte) : -128 ≤ s8 b ∧ s8 b ≤ 127 :=
  ⟨BitVec.le_toInt b, Int.le_of_lt_add_one (BitVec.toInt_lt (x := b))⟩

/-- The byte of an integer, read as a signed one, is that integer's residue in [-128,127]. -/
theorem s8_u8 (v : Int) : s8 (u8 v) = (v + 128) % 256 - 128 := by
  rw [s8, u8, BitVec.toInt_ofInt, Int.bmod_def]
  omega

/-- In [-128,127] the signed difference of two bytes is the only integer that, added to the second, gives the first. -/
theorem s8_sub8_eq_iff (cur prev : Byte) (v : Int) (h0 : -128 ≤ v) (h1 : v ≤ 127) :
    s8 (sub8 cur prev) = v ↔ (cur.toNat : Int) = (prev.toNat + v) % 256 := by
  rw [← add8_toNat, Int.natCast_inj, BitVec.toNat_inj]
  constructor
  · rintro rfl
    exact (add8_s8_sub8 prev cur).symm
  · rintro rfl
    have hsub : sub8 (add8 prev v) prev = u8 v := add_sub_cancel_left prev (BitVec.ofInt 8 v)
    rw [hsub, s8_u8]
    omega

/-- A signed byte less a green delta that LUMA takes is short of 248 in size, so that the residue in [-128,127] lies in
[-8,7] only where the difference does (42_chunk_encode.md R133). -/
theorem inRange_s8_u8_sub (d : Byte) (g : Int) (hg : -32 ≤ g ∧ g ≤ 31) :
    inRange (-8) 7 (s8 (u8 (s8 d - g))) = inRange (-8) 7 (s8 d - g) := by
  have hd := s8_bounds d
  rw [Bool.eq_iff_iff, inRange_iff, inRange_iff, s8_u8]
  omega

end Sys2Proof.Machine
end

section
/-! The settled statements of the serialisers (42_chunk_encode.md). -/

namespace Sys2Proof

open Sys2Proof.Machine

/-- Settles O28: in range the bytes are those of the chunk, each the byte of a formula that stays in [0,255]; outside, the
serialiser's own test fails. -/
theorem serialisersFollowTheirFormulas : Obligations.SerialisersFollowTheirFormulas := by
  refine ⟨fun idx => ?_, fun d => ?_, fun d => ?_, fun count => ?_⟩
  · split
    · rename_i hr
      obtain ⟨k, rfl⟩ := exists_index_of_range idx hr
      exact encIndex_ok k
    · rename_i hr
      exact encIndex_out_of_range idx hr
  · split
    · rename_i hr
      exact ⟨_, encDiff_ok d ((diffOk_iff d).2 hr),
        byteOf_toNat _ (by simp only [diffBias]; omega) (by simp only [diffBias]; omega)⟩
    · rename_i hr
      exact encDiff_out_of_range d (mt (diffOk_iff d).1 hr)
  · split
    · rename_i hr
      exact ⟨_, _, encLuma_ok d ((lumaOk_iff d).2 hr),
        byteOf_toNat _ (by simp only [lumaGreenBias]; omega) (by simp only [lumaGreenBias]; omega),
        byteOf_toNat _ (by simp only [lumaRedBlueBias]; omega) (by simp only [lumaRedBlueBias]; omega)⟩
    · rename_i hr
      exact encLuma_out_of_range d (mt (lumaOk_iff d).1 hr)
  · split
    · rename_i hr
      obtain ⟨k, rfl⟩ := Int.eq_ofNat_of_zero_le (by omega : 0 ≤ count)
      exact ⟨_, encRun_ok k (by omega) (by omega), byteOf_toNat _ (by omega) (by omega)⟩
    · rename_i hr
      exact encRun_out_of_range count hr

/-- Settles O29: each parser works on the chunk whose bytes the serialiser gives, and a chunk computed from two pixels
names the first when applied to the second. -/
theorem parsersInvertSerialisers : Obligations.ParsersInvertSerialisers := by
  intro cur prev
  refine ⟨fun ha hd => ?_, fun ha hl => ?_, fun ha => ?_, ?_, fun c idx => ?_, fun count h1 h2 => ?_⟩
  · have hv := (diff_legal _ _ _).2 ((diffOk_iff _).1 hd)
    exact ⟨_, encDiff_ok _ hd, (parsed_chunkBytes _ _ hv).trans (congrArg Except.ok (diffPixel_delta prev cur ha))⟩
  · have hv := (luma_legal _ _ _).2 ((lumaOk_iff _).1 hl)
    exact ⟨_, encLuma_ok _ hl, (parsed_chunkBytes _ _ hv).trans (congrArg Except.ok (lumaPixel_delta prev cur ha))⟩
  · exact ⟨_, rfl, (parsed_chunkBytes (.rgb cur.r cur.g cur.b) _ rfl).trans
      (congrArg Except.ok (rgbPixel_channels prev cur ha))⟩
  · exact ⟨_, rfl, parsed_chunkBytes (.rgba cur.r cur.g cur.b cur.a) _ rfl⟩
  · exact ⟨_, encIndex_ok idx, parsed_chunkBytes (.index idx) _ rfl⟩
  · exact ⟨_, encRun_ok count h1 h2, parsed_chunkBytes (.run count) _ ((run_legal count).2 ⟨h1, h2⟩)⟩

/-- Settles O30: a delta is the signed difference of its channel's two bytes. -/
theorem deltaIsTheSignedByteDifference : Obligations.DeltaIsTheSignedByteDifference :=
  fun cur prev v h0 h1 =>
    ⟨s8_sub8_eq_iff cur.r prev.r v h0 h1, s8_sub8_eq_iff cur.g prev.g v h0 h1, s8_sub8_eq_iff cur.b prev.b v h0 h1⟩

/-- Settles O31: where the green delta is in its range, a wrapped difference from it passes only if the integer does;
where it is not, both tests fail. -/
theorem lumaTestAgreesModulo256 : Obligations.LumaTestAgreesModulo256 := by
  intro cur prev
  cases hg : inRange (-32) 31 (delta cur prev).dg with
  | false => simp only [lumaOk, hg, Bool.false_and]
  | true =>
    have hgreen := (inRange_iff _ _ _).1 hg
    have hred : inRange (-8) 7 (s8 (u8 ((delta cur prev).dr - (delta cur prev).dg))) = _ :=
      inRange_s8_u8_sub (sub8 cur.r prev.r) _ hgreen
    have hblue : inRange (-8) 7 (s8 (u8 ((delta cur prev).db - (delta cur prev).dg))) = _ :=
      inRange_s8_u8_sub (sub8 cur.b prev.b) _ hgreen
    rw [lumaOk, hg, hred, hblue]
    rfl

end Sys2Proof
end

section
/-! SUPPORT. Parsers given the bytes of their kind (43_chunk_decode.md R150). -/

namespace Sys2Proof.Machine

/-- A parser that completes on every chunk of its kind completes on all bytes of its kind. -/
theorem parsed_completes {α : Type} (k : Kind) (f : Instr → Raises α) (hf : ∀ i, i.kind = k → ∃ a, f i = .ok a)
    (bs : List Byte) (h : meetsContract k bs) : ∃ a, parsed k bs f = .ok a := by
  obtain ⟨i, hk, _, _, hi⟩ := parsed_of_meets k bs f h
  rw [hi]
  exact hf i hk

/-- The count of a RUN chunk is one of a well-formed chunk, so it is in [1,62] (43_chunk_decode.md R156). -/
theorem decRun_completes (bs : List Byte) (h : meetsContract .run bs) :
    ∃ count, decRun bs = .ok count ∧ 1 ≤ count ∧ count ≤ 62 := by
  obtain ⟨i, hk, hv, _, hi⟩ := parsed_of_meets .run bs _ h
  cases i with
  | run count => exact ⟨count, hi, (run_legal count).1 hv⟩
  | rgb | rgba | index | diff | luma => cases hk

end Sys2Proof.Machine
end

section
/-! The settled statement of the parsers (43_chunk_decode.md). -/

namespace Sys2Proof

open Sys2Proof.Machine

/-- Settles O58: on bytes of its kind each parser is given a chunk of its kind, which its own arm takes; on all others
the contract check has already raised. -/
theorem parsersRaiseOutsideTheirContract : Obligations.ParsersRaiseOutsideTheirContract := by
  intro prev c bs
  refine ⟨parsed_completes .rgb _ (fun i hk => ?_) bs, parsed_of_not_meets .rgb bs _,
    parsed_completes .rgba _ (fun i hk => ?_) bs, parsed_of_not_meets .rgba bs _,
    parsed_completes .index _ (fun i hk => ?_) bs, parsed_of_not_meets .index bs _,
    parsed_completes .diff _ (fun i hk => ?_) bs, parsed_of_not_meets .diff bs _,
    parsed_completes .luma _ (fun i hk => ?_) bs, parsed_of_not_meets .luma bs _,
    decRun_completes bs, parsed_of_not_meets .run bs _⟩
  all_goals
    cases i <;> cases hk
    exact ⟨_, rfl⟩

end Sys2Proof
end

section
/-! SUPPORT. `ENC_STEP` as the host issues it and as a turn of a running pass (44_stream_encoder.md R171, R172): what every
completed step leaves, and that `PIX_IN` plays no part in it. -/

namespace Sys2Proof.Machine

/-- The body of `ENC_STEP` leaves `PREV` at its pixel, on either of its two paths (44_stream_encoder.md R179). -/
theorem Enc.body_prev (H : Hash) (p : Pixel) (last : Bool) (e e' : Enc) (h : e.run < 62)
    (hb : e.body H p last = .ok e') : e'.prev = p := by
  cases (Enc.body_ok H p last e h).symm.trans hb
  by_cases hp : p = e.prev
  · rw [if_pos hp, apply_ite Enc.prev, ite_self, hp]
  · rw [if_neg hp]

/-- A pixel of a running pass never raises, and `PREV` is that pixel afterwards. -/
theorem Enc.step_completes (H : Hash) (p : Pixel) (last : Bool) (e : Enc) (hs : e.status = .busy) (h : e.run < 62) :
    ∃ e', e.step H p last = .ok e' ∧ e'.prev = p := by
  obtain ⟨e', _, hbody, _⟩ := Enc.body_carries H p last e h
  have hprev := Enc.body_prev H p last e e' h hbody
  refine ⟨_, Enc.step_busy H p last e e' hs hbody, ?_⟩
  cases last <;> exact hprev

theorem Enc.busy_of_step_ok (H : Hash) (p : Pixel) (last : Bool) (e e' : Enc) (h : e.step H p last = .ok e') :
    e.status = .busy := by
  by_contra hs
  cases (Enc.step_not_busy H p last e hs).symm.trans h

/-- A completed step ends the pass at the last pixel, and leaves it running at every other (10_state.md R28). -/
theorem Enc.step_status (H : Hash) (p : Pixel) (last : Bool) (e e' : Enc) (h : e.run < 62)
    (hstep : e.step H p last = .ok e') : e'.status = if last then .done else .busy := by
  have hs := Enc.busy_of_step_ok H p last e e' hstep
  obtain ⟨e₁, _, hbody, _, hstatus, _⟩ := Enc.body_carries H p last e h
  cases (Enc.step_busy H p last e e₁ hs hbody).symm.trans hstep
  cases last with
  | false => exact hstatus.trans hs
  | true => rfl

/-- A performed `ENC_STEP` that does not raise writes the encoder alone: its body's registers, and `STATUS`. -/
theorem step_encStep (s : State) (p : Pixel) (last : Bool) (rest : List HostOp) (e' : Enc)
    (hh : s.host = .encStep p last :: rest) (hp : s.passRunning = false) (hs : s.enc.status = .busy)
    (hb : s.enc.body codecHash p last = .ok e') :
    ∃ status, step s = .next { s with enc := { e' with status := status }, host := rest } := by
  have hstep : step s = .next { s with enc := if last then { e' with status := .done } else e', host := rest } := by
    rw [step_queued s _ rest hh hp, perform, Enc.step_busy codecHash p last s.enc e' hs hb]
    rfl
  cases last with
  | false => exact ⟨e'.status, hstep⟩
  | true => exact ⟨.done, hstep⟩

/-- A performed `ENC_STEP` of a pixel that differs from `PREV` emits the open run and then the pixel's own chunk. -/
theorem step_encStep_differing (s : State) (p : Pixel) (last : Bool) (rest : List HostOp)
    (hh : s.host = .encStep p last :: rest) (hp : s.passRunning = false) (hs : s.enc.status = .busy)
    (hr : s.enc.run < 62) (hne : p ≠ s.enc.prev) :
    ∃ t, step s = .next t ∧
      t.enc.outBytes = s.enc.outBytes ++ pendingRun s.enc ++ pixelChunk codecHash s.enc.cache s.enc.prev p ∧
      t.enc.run = 0 ∧ t.enc.prev = p ∧
      t.enc.cache = (if cacheHit codecHash s.enc.cache p then s.enc.cache
        else cacheStore s.enc.cache (codecHash p) p) ∧
      t.dec = s.dec ∧ t.host = rest ∧ t.inDecPass = s.inDecPass := by
  have hb := Enc.body_ok codecHash p last s.enc hr
  rw [if_neg hne] at hb
  obtain ⟨_, ht⟩ := step_encStep s p last rest _ hh hp hs hb
  exact ⟨_, ht, rfl, rfl, rfl, rfl, rfl, rfl, rfl⟩

/-- The RUN chunk of a run that one more pixel has extended. -/
theorem chunkBytes_run_succ (k : Nat) : chunkBytes (.run (k + 1)) = [byteOf (0xC0 + (k : Int))] := by
  simp [chunkBytes]

/-- `PIX_IN` plays no part in the body of `ENC_STEP`. -/
theorem Enc.body_pixIn (H : Hash) (p : Pixel) (last : Bool) (e e' : Enc) (q : List Pixel) (h : e.run < 62)
    (hb : e.body H p last = .ok e') : Enc.body H p last { e with pixIn := q } = .ok { e' with pixIn := q } := by
  cases (Enc.body_ok H p last e h).symm.trans hb
  rw [Enc.body_ok H p last { e with pixIn := q } h]
  by_cases hp : p = e.prev
  · by_cases hf : e.run + 1 = 62 ∨ last = true
    · simp only [if_pos hp, if_pos hf]
    · simp only [if_pos hp, if_neg hf]
  · simp only [if_neg hp]

/-- Nor in `ENC_STEP` of a running pass. -/
theorem Enc.step_pixIn (H : Hash) (p : Pixel) (last : Bool) (e e' : Enc) (q : List Pixel) (hs : e.status = .busy)
    (h : e.run < 62) (hstep : e.step H p last = .ok e') :
    Enc.step H p last { e with pixIn := q } = .ok { e' with pixIn := q } := by
  obtain ⟨e₁, _, hbody, _⟩ := Enc.body_carries H p last e h
  cases (Enc.step_busy H p last e e₁ hs hbody).symm.trans hstep
  rw [Enc.step_busy H p last { e with pixIn := q } _ hs (Enc.body_pixIn H p last e e₁ q h hbody)]
  cases last <;> rfl

end Sys2Proof.Machine
end

section
/-! SUPPORT. `ENC_PASS` of the stepped machine is `ENC_PASS` the function (44_stream_encoder.md R171), and how many pixels the
bytes of a run of chunks can carry. -/

namespace Sys2Proof.Machine

/-- The encoder in the registers of `e` with `ps` the pixels of its pass still to be read: `DONE` when none is left. -/
def Enc.inPass (e : Enc) (ps : List Pixel) : Enc :=
  { e with status := if ps.isEmpty then .done else .busy, pixIn := ps }

theorem encPassStart_eq_inPass (ps : List Pixel) : encPassStart ps = encStart.inPass ps := rfl

/-- A turn of a running pass is `ENC_STEP` of its next pixel, `last` when no other follows. -/
theorem Enc.passStep_inPass (H : Hash) (p : Pixel) (rest : List Pixel) (e e' : Enc) (hs : e.status = .busy)
    (hr : e.run < 62) (h : e.step H p rest.isEmpty = .ok e') :
    (e.inPass (p :: rest)).passStep H = .ok (e'.inPass rest) := by
  have hin : e.inPass (p :: rest) = { e with pixIn := p :: rest } := by simp [Enc.inPass, hs]
  have hout : e'.inPass rest = { e' with pixIn := rest } := by
    simp only [Enc.inPass, Enc.step_status H p rest.isEmpty e e' hr h]
  rw [hin, hout, Enc.passStep]
  simp only [Enc.step_pixIn H p rest.isEmpty e e' (p :: rest) hs hr h]

theorem core_run_succ (k : Nat) (s t : State) (h : step s = .next t) : core.run (k + 1) s = core.run k t := by
  have h : core.step s = .next t := h
  simp only [Host.Core.run, h]

/-- With a decoder that does not move by itself, the machine takes the steps of a running pass, one for each pixel. -/
theorem run_inPass (s : State) (hd : s.decoderMoves = false) (ps : List Pixel) (e e' : Enc)
    (hs : ps ≠ [] → e.status = .busy) (hr : e.run < 62) (h : encSteps codecHash ps.length ps e = .ok e') :
    core.run ps.length { s with enc := e.inPass ps } = .next { s with enc := e'.inPass [] } := by
  induction ps generalizing e with
  | nil => cases h; rfl
  | cons p rest ih =>
    have hs := hs (List.cons_ne_nil p rest)
    obtain ⟨e₁, _, hstep, _, hrun, hbusy, _⟩ := Enc.step_carries codecHash p rest.isEmpty e hs hr
    have hturn : step { s with enc := e.inPass (p :: rest) } = .next { s with enc := e₁.inPass rest } := by
      have hm : (e.inPass (p :: rest)).canMove = true := rfl
      rw [step_encoder { s with enc := e.inPass (p :: rest) } hd hm,
        Enc.passStep_inPass codecHash p rest e e₁ hs hr hstep]
      rfl
    have hsteps : encSteps codecHash rest.length rest e₁ = .ok e' := by
      simpa only [List.length_cons, encSteps, hstep] using h
    calc core.run (rest.length + 1) { s with enc := e.inPass (p :: rest) }
        = core.run rest.length { s with enc := e₁.inPass rest } := core_run_succ _ _ _ hturn
      _ = .next { s with enc := e'.inPass [] } :=
          ih e₁ (fun hne => hbusy (by simpa using hne)) hrun hsteps

/-- A legal chunk takes at most five bytes a pixel, and produces at most 62 pixels a byte. -/
theorem chunkBytes_length_bounds (i : Instr) (h : i.violation = none) :
    (chunkBytes i).length ≤ 5 * pixelsOf i ∧ pixelsOf i ≤ 62 * (chunkBytes i).length := by
  cases i with
  | run count =>
    have hc := (run_legal count).1 h
    simp only [chunkBytes, pixelsOf, List.length_singleton]
    omega
  | rgb | rgba | index | diff | luma => simp [chunkBytes, pixelsOf]

/-- So do chunks that run one after the other. -/
theorem Dec.Runs.length_bounds {H : Hash} {d d' : Dec} {is : List Instr} (h : Dec.Runs H d is d') :
    (is.flatMap chunkBytes).length + 5 * d.cnt ≤ 5 * d'.cnt ∧
    d'.cnt ≤ d.cnt + 62 * (is.flatMap chunkBytes).length := by
  induction h with
  | nil => simp
  | @cons d d₁ d' i is hx _ ih =>
    obtain ⟨_, hv, _⟩ := Dec.exec_ok _ _ _ _ hx
    have hcnt := (Dec.exec_pixels _ _ _ _ hx).1
    have hi := chunkBytes_length_bounds i hv
    rw [List.flatMap_cons, List.length_append]
    omega

end Sys2Proof.Machine
end

section
/-! The settled statements of the stream encoder (44_stream_encoder.md). -/

namespace Sys2Proof

open Sys2Proof.Machine

/-- Settles O46: the START leaves the encoder with the whole list to read, and from there the machine takes the steps of the
function, since the decoder, left as it was, does not move by itself. -/
theorem machineRunsEncodePass : Obligations.MachineRunsEncodePass := by
  intro s ps rest hh hp hidle
  have hstill : State.decoderMoves { s with host := rest } = false := by
    rw [Bool.eq_false_iff, ne_eq, State.decoderMoves_iff]
    rintro ⟨hb, hpass | hrest⟩
    · cases hpass.symm.trans (((s.passRunning_false_iff).1 hp).1 hb)
    · exact hidle.elim (fun h => h hb) (fun h => h hrest)
  obtain ⟨e', _, hsteps, _⟩ := encSteps_carries codecHash ps encStart rfl (by simp) (fun _ => rfl)
  have hstart : step s = .next { s with enc := encStart.inPass ps, host := rest } := by
    rw [step_queued s _ rest hh hp, perform, encPassStart_eq_inPass]
  refine ⟨{ s with enc := e'.inPass [], host := rest }, ?_, ?_, rfl, rfl⟩
  · rw [core_run_succ _ s _ hstart]
    exact run_inPass { s with host := rest } hstill ps encStart e' (fun _ => rfl) (by simp) hsteps
  · rw [encPass, hsteps]
    rfl

/-- Settles O34: the run grows by the pixel, and is emitted at 62 or at the last pixel. -/
theorem equalPixelExtendsRun : Obligations.EqualPixelExtendsRun := by
  intro s last rest hh hp hs hr
  have hb := Enc.body_ok codecHash s.enc.prev last s.enc hr
  rw [if_pos rfl] at hb
  by_cases hf : s.enc.run + 1 = 62 ∨ last = true
  · rw [if_pos hf, chunkBytes_run_succ] at hb
    obtain ⟨_, ht⟩ := step_encStep s _ last rest _ hh hp hs hb
    exact ⟨_, ht, rfl, fun _ => rfl, by rw [if_pos hf]; exact ⟨rfl, rfl⟩, rfl, rfl, rfl⟩
  · rw [if_neg hf] at hb
    obtain ⟨_, ht⟩ := step_encStep s _ last rest _ hh hp hs hb
    exact ⟨_, ht, rfl, fun _ => rfl, by rw [if_neg hf]; exact ⟨rfl, rfl⟩, rfl, rfl, rfl⟩

/-- Settles O35: on a hit the pixel's own chunk is INDEX, and nothing is stored. -/
theorem cachedPixelIsCodedAsIndex : Obligations.CachedPixelIsCodedAsIndex := by
  intro s p last rest hh hp hs hr hne hheld
  have hhit : cacheHit codecHash s.enc.cache p = true := decide_eq_true hheld
  obtain ⟨t, ht, hout, hrun, hprev, hcache, hframe⟩ := step_encStep_differing s p last rest hh hp hs hr hne
  rw [pixelChunk, if_pos hhit] at hout
  rw [if_pos hhit] at hcache
  exact ⟨t, ht, hout, hrun, hprev, fun i => by rw [hcache], hframe⟩

/-- Settles O36: on a miss the pixel is stored, and its own chunk is the first of the others that applies. -/
theorem missedPixelIsStoredAndCoded : Obligations.MissedPixelIsStoredAndCoded := by
  intro s p last rest hh hp hs hr hne hmissed
  have hmiss : ¬ cacheHit codecHash s.enc.cache p = true := by simpa [cacheHit] using hmissed
  obtain ⟨t, ht, hout, hrun, hprev, hcache, hframe⟩ := step_encStep_differing s p last rest hh hp hs hr hne
  rw [pixelChunk, if_neg hmiss] at hout
  rw [if_neg hmiss] at hcache
  exact ⟨t, ht, hout, hrun, hprev, ⟨by simp [hcache], fun j hj => by simp [hcache, hj]⟩, hframe⟩

/-- Settles O37: a running encoder's step completes, and both of its paths leave `PREV` at the pixel. -/
theorem previousPixelIsAlwaysTheLastCoded : Obligations.PreviousPixelIsAlwaysTheLastCoded :=
  Enc.step_completes

/-- Settles O38: a step that completes is one of a running pass, which keeps `RUN` in its range and closes it at the last
pixel. -/
theorem lastPixelClosesRun : Obligations.LastPixelClosesRun := by
  intro H p last e e' hr h
  obtain ⟨_, _, hstep, _, hrun, _, hlast⟩ := Enc.step_carries H p last e (Enc.busy_of_step_ok H p last e e' h) hr
  cases hstep.symm.trans h
  have hstatus := Enc.step_status H p last e e' hr h
  exact ⟨hrun, fun hl => ⟨hlast hl, by rw [hstatus, hl]; rfl⟩, fun hl => by rw [hstatus, hl]; rfl⟩

/-- Settles O40: the bytes are those of chunks that a decoder runs into exactly the pixels, so each chunk's bounds add up. -/
theorem encodePassNeverRaises : Obligations.EncodePassNeverRaises := by
  intro H ps
  obtain ⟨is, hpass, hruns⟩ := encPass_carries H ps
  obtain ⟨d, hr, hcnt, _⟩ := hruns [] ps.length le_rfl
  have hbounds := hr.length_bounds
  rw [hcnt, decStart_cnt] at hbounds
  exact ⟨_, hpass, by simpa using hbounds⟩

/-- Settles O2: the START is performed, and every slot of its cache is the zero pixel. -/
theorem encoderStartSetsResetValues : Obligations.EncoderStartSetsResetValues := by
  intro s rest hh hp
  exact ⟨_, step_queued s _ rest hh hp, rfl, rfl, cacheLookup_replicate _, rfl, rfl, rfl, rfl, rfl⟩

/-- Settles O39: the step raises out of sequence, and error entry writes `STATUS` alone. -/
theorem pixelOutOfSequenceRaises : Obligations.PixelOutOfSequenceRaises := by
  intro s p last rest hh hp hs
  rw [step_queued s _ rest hh hp, perform, Enc.step_not_busy codecHash p last s.enc hs]
  rfl

end Sys2Proof
end

section
/-! SUPPORT. What a legal chunk does in a running decoder that expects its pixels (45_stream_decoder.md R195 to R197). -/

namespace Sys2Proof.Machine

/-- The pixel that a DIFF, LUMA, RGB or RGBA chunk stores (R197); the other two kinds store nothing. -/
def storedPixel (prev : Pixel) : Instr → Option Pixel
  | .rgb r g b => some (rgbPixel prev r g b)
  | .rgba r g b a => some (rgbaPixel r g b a)
  | .index _ => none
  | .diff dr dg db => some (diffPixel prev dr dg db)
  | .luma dg drg dbg => some (lumaPixel prev dg drg dbg)
  | .run _ => none

/-- A storing chunk's parser gives, from the chunk's own bytes, the pixel that the chunk stores. -/
theorem storedPixelParser_chunkBytes (prev : Pixel) (i : Instr) (h : i.violation = none) :
    storedPixelParser i.kind prev (chunkBytes i) = (storedPixel prev i).map .ok := by
  cases i with
  | rgb | rgba | diff | luma => exact congrArg some (parsed_chunkBytes _ _ h)
  | index | run => rfl

/-- What parses is a well-formed chunk of the lead byte's kind. -/
theorem parseChunk_legal (b0 : Byte) (payload : List Byte) (i : Instr) (h : parseChunk (b0 :: payload) = .ok i) :
    i.violation = none ∧ i.kind = kind b0 := by
  rcases parseChunk_cases b0 payload with ⟨r, g, b, hk, rfl, hp⟩ | ⟨r, g, b, a, hk, rfl, hp⟩ | ⟨hk, rfl, hp⟩ |
    ⟨hk, rfl, hp⟩ | ⟨b1, hk, rfl, hp⟩ | ⟨hk, rfl, hp⟩ | ⟨_, hp⟩ <;> cases hp.symm.trans h
  · exact ⟨rfl, hk.symm⟩
  · exact ⟨rfl, hk.symm⟩
  · exact ⟨rfl, hk.symm⟩
  · exact ⟨diffFields_wellFormed b0, hk.symm⟩
  · exact ⟨lumaFields_wellFormed b0 b1, hk.symm⟩
  · exact ⟨runField_wellFormed b0 hk, hk.symm⟩

/-- Storing a pixel in a slot changes that slot alone (41_pixel_cache.md R123). -/
theorem storedIn_cacheStore (c : Cache) (i : Index) (p : Pixel) : storedIn c (cacheStore c i p) i p :=
  ⟨by simp, fun j hj => by simp [hj]⟩

/-- A ready decoder codes a storing chunk as its pixel. -/
theorem Dec.exec_storing (H : Hash) (i : Instr) (d : Dec) (p : Pixel) (hr : d.ready = true) (hv : i.violation = none)
    (hp : storedPixel d.prev i = some p) : d.exec H i = .ok (d.codeStored H p i.length) := by
  cases i with
  | rgb | rgba | diff | luma =>
    cases hp
    exact Dec.issue_ready d _ _ hr hv
  | index | run => cases hp

/-- A ready decoder codes an INDEX chunk as its slot's pixel. -/
theorem Dec.exec_index (H : Hash) (d : Dec) (idx : Index) (hr : d.ready = true) :
    d.exec H (.index idx) = .ok (d.codeUnstored (cacheLookup d.cache idx) 1) :=
  Dec.issue_ready d (.index idx) _ hr rfl

/-- A ready decoder raises `FE_PIXEL_COUNT` on a RUN past the expected count (R201). -/
theorem Dec.exec_run_past (H : Hash) (d : Dec) (count : Nat) (hr : d.ready = true) (h1 : 1 ≤ count) (h2 : count ≤ 62)
    (hn : d.n < d.cnt + count) : d.exec H (.run count) = .error (.format .pixelCount) := by
  rw [Dec.exec, Dec.repeatPrev, Dec.issue_ready d (.run count) _ hr ((run_legal count).2 ⟨h1, h2⟩), if_pos hn]

/-- A chunk that does not raise changes the decoder alone, and in it neither `STATUS` nor a pass input. -/
theorem exec_of_ok (i : Instr) (s : State) (d : Dec) (h : s.dec.exec codecHash i = .ok d) :
    exec i s = .next { s with dec := d } ∧ chunkFrame s { s with dec := d } := by
  obtain ⟨_, _, hstatus, hmem, hlen, hn, _⟩ := Dec.exec_ok _ i s.dec d h
  exact ⟨by rw [exec_eq, h]; rfl, rfl, rfl, rfl, hstatus, hn, hlen, fun a => by rw [hmem]⟩

/-- Everything a storing chunk does in a running decoder that expects a pixel (R192, R193, R197). -/
theorem exec_storing (i : Instr) (s : State) (p : Pixel) (hb : s.dec.status = .busy) (hc : s.dec.cnt < s.dec.n)
    (hv : i.violation = none) (hp : storedPixel s.dec.prev i = some p) :
    ∃ t, exec i s = .next t ∧ t.dec.prev = p ∧ t.dec.outPixels = s.dec.outPixels ++ [p] ∧
      t.dec.cnt = s.dec.cnt + 1 ∧ t.dec.bp = s.dec.bp + i.length ∧
      storedIn s.dec.cache t.dec.cache (codecHash p) p ∧ chunkFrame s t := by
  obtain ⟨ht, hframe⟩ := exec_of_ok i s _ (Dec.exec_storing _ i s.dec p ((s.dec.ready_iff).2 ⟨hb, hc⟩) hv hp)
  exact ⟨_, ht, rfl, rfl, rfl, rfl, storedIn_cacheStore _ _ _, hframe⟩

/-- Every legal chunk produces a pixel. -/
theorem pixelsOf_pos (i : Instr) (h : i.violation = none) : 0 < pixelsOf i := by
  cases i with
  | run count => exact ((run_legal count).1 h).1
  | rgb | rgba | index | diff | luma => exact Nat.one_pos

/-- A running decoder executes every legal chunk whose pixels it still expects. -/
theorem Dec.exec_fits (H : Hash) (i : Instr) (d : Dec) (hb : d.status = .busy) (hv : i.violation = none)
    (hn : d.cnt + pixelsOf i ≤ d.n) : ∃ d', d.exec H i = .ok d' := by
  have hpos := pixelsOf_pos i hv
  have hr : d.ready = true := (d.ready_iff).2 ⟨hb, by omega⟩
  cases i with
  | run count =>
    obtain ⟨h1, h2⟩ := (run_legal count).1 hv
    exact ⟨_, Dec.exec_run H d count hr h1 h2 hn⟩
  | index idx => exact ⟨_, Dec.exec_index H d idx hr⟩
  | rgb | rgba | diff | luma => exact ⟨_, Dec.exec_storing H _ d _ hr hv rfl⟩

/-- A running decoder executes every list of legal chunks whose pixels it still expects (R203). -/
theorem Dec.runs_of_legal (H : Hash) (is : List Instr) (d : Dec) (hb : d.status = .busy)
    (hv : ∀ i ∈ is, i.violation = none) (hn : d.cnt + (is.map pixelsOf).sum ≤ d.n) :
    ∃ d', Dec.Runs H d is d' ∧ d'.cnt = d.cnt + (is.map pixelsOf).sum := by
  induction is generalizing d with
  | nil => exact ⟨d, .nil d, rfl⟩
  | cons i is ih =>
    obtain ⟨hi, his⟩ := List.forall_mem_cons.1 hv
    rw [List.map_cons, List.sum_cons] at hn ⊢
    obtain ⟨d₁, hx⟩ := Dec.exec_fits H i d hb hi (by omega)
    obtain ⟨_, _, hstatus, _, _, hn₁, _⟩ := Dec.exec_ok H i d d₁ hx
    have hcnt₁ := (Dec.exec_pixels H i d d₁ hx).1
    obtain ⟨d', hruns, hcnt⟩ := ih d₁ (hstatus.trans hb) his (by omega)
    exact ⟨d', .cons hx hruns, by omega⟩

end Sys2Proof.Machine
end

section
/-! SUPPORT. A chunk's turn, from the bytes that remain (45_stream_decoder.md R192, R199, R200). -/

namespace Sys2Proof.Machine

/-- A running decoder that expects a pixel takes a chunk's turn by itself in a `DEC_PASS` or with nothing queued. -/
theorem step_running (s : State) (hq : s.inDecPass = true ∨ s.host = []) (hb : s.dec.status = .busy)
    (hc : s.dec.cnt < s.dec.n) : step s = chunkTurn exec s :=
  step_chunk s ((s.decoderMoves_iff).2 ⟨hb, hq⟩) hc

/-- A `DEC_STEP` that the host issues in sequence is a chunk's turn. -/
theorem step_decStep (s : State) (rest : List HostOp) (hh : s.host = .decStep :: rest) (hp : s.passRunning = false)
    (hb : s.dec.status = .busy) (hc : s.dec.cnt < s.dec.n) : step s = chunkTurn exec { s with host := rest } := by
  rw [step_queued s _ rest hh hp, perform, if_pos ((s.dec.ready_iff).2 ⟨hb, hc⟩)]

theorem chunkTurn_of_decode (s : State) (i : Instr) (rest : List Byte)
    (h : decode (remainingBytes s.dec) = .ok (i, rest)) : chunkTurn exec s = thenEndPass (exec i s) := by
  rw [chunkTurn_decode, h]

/-- Bytes that do not decode are error entry. -/
theorem chunkTurn_of_decode_error (s : State) (e : Err) (h : decode (remainingBytes s.dec) = .error e) :
    ∃ t, chunkTurn exec s = .next t ∧ decoderFaults s t e := by
  rw [chunkTurn_decode, h]
  exact resolveDec_error s e

/-- At or beyond `L` no byte remains. -/
theorem remainingBytes_of_le (d : Dec) (h : d.len ≤ d.bp) : remainingBytes d = [] := by
  rw [remainingBytes, Nat.sub_eq_zero_of_le h, memoryBytes]

/-- Below `L` the byte at `BP` is the first that remains. -/
theorem remainingBytes_of_lt (d : Dec) (h : d.bp < d.len) :
    remainingBytes d = memoryRead d.mem d.bp :: memoryBytes d.mem (d.bp + 1) (d.len - d.bp - 1) := by
  obtain ⟨k, hk⟩ := Nat.exists_eq_add_of_lt h
  rw [remainingBytes, show d.len - d.bp = k + 1 by omega, memoryBytes, Nat.add_sub_cancel]

/-- Only LUMA, RGB and RGBA chunks are longer than their lead byte. -/
theorem kind_of_one_lt_chunkLen (b0 : Byte) (h : 1 < chunkLen b0) :
    kind b0 = .luma ∨ kind b0 = .rgb ∨ kind b0 = .rgba := by
  rw [chunkLen_eq_kindLength] at h
  cases hk : kind b0 with
  | luma => exact .inl rfl
  | rgb => exact .inr (.inl rfl)
  | rgba => exact .inr (.inr rfl)
  | index | diff | run =>
    rw [hk] at h
    exact absurd h (Nat.lt_irrefl 1)

end Sys2Proof.Machine
end

section
/-! SUPPORT. `DEC_PASS` the function and the stepped machine: the errors of a step, and the turns of a running pass
(45_stream_decoder.md R191). -/

namespace Sys2Proof.Machine

/-- A decoder step in sequence raises one of the three errors of a chunk. -/
theorem Dec.step_error (H : Hash) (d : Dec) (e : Err) (hr : d.ready = true) (h : d.step H = .error e) :
    e = .format .streamExhausted ∨ e = .format .truncatedChunk ∨ e = .format .pixelCount := by
  rw [Dec.step, if_pos hr] at h
  cases hf : d.fetch with
  | error e' =>
    rw [hf] at h
    cases h
    exact (Dec.fetch_error d e hf).imp_right .inl
  | ok i =>
    rw [hf] at h
    obtain ⟨_, _, _, hv, _⟩ := Dec.fetch_ok d i hf
    exact .inr (.inr (Dec.exec_error H i d e hr hv h))

/-- So does the loop of `DEC_PASS`, since a chunk that does not raise leaves the decoder running. -/
theorem decSteps_error (H : Hash) (k : Nat) (d : Dec) (e : Err) (hb : d.status = .busy)
    (h : decSteps H k d = .error e) :
    e = .format .streamExhausted ∨ e = .format .truncatedChunk ∨ e = .format .pixelCount := by
  induction k generalizing d with
  | zero => cases h
  | succ k ih =>
    by_cases hc : d.cnt < d.n
    · rw [decSteps, if_pos hc] at h
      cases hs : d.step H with
      | error e' =>
        rw [hs] at h
        cases h
        exact Dec.step_error H d e ((d.ready_iff).2 ⟨hb, hc⟩) hs
      | ok d₁ =>
        rw [hs] at h
        obtain ⟨i, hx⟩ := Dec.step_ok H d d₁ hs
        obtain ⟨_, _, hstatus, _⟩ := Dec.exec_ok H i d d₁ hx
        exact ih d₁ (hstatus.trans hb) h
    · cases (decSteps_of_complete H (k + 1) d (by omega)).symm.trans h

/-- What `DEC_PASS` makes of the outcome of its loop: the pixels, an error of the loop, or bytes left over. -/
def passResult : Raises Dec → Raises (List Pixel)
  | .error e => .error e
  | .ok d => if d.bp ≠ d.len then .error (.format .trailingBytes) else .ok d.outPixels

theorem decPass_eq (H : Hash) (inp : List Byte) (n : Nat) :
    decPass H inp n = passResult (decSteps H n (decStart inp n)) := rfl

/-- While pixels are expected the end-of-pass test does nothing. -/
theorem Dec.endPass_of_expecting (d : Dec) (h : d.cnt < d.n) : d.endPass = d := by
  rw [Dec.endPass, if_neg (fun hb => hb.2 h)]

/-- When no more pixels are expected the end-of-pass test gives the pass its result. -/
theorem Dec.endPass_result (d : Dec) (hb : d.status = .busy) (hc : d.n ≤ d.cnt) :
    d.endPass.result = some (passResult (.ok d)) := by
  rcases d.endPass_cases hb with ⟨hlt, _⟩ | ⟨_, hl, hd⟩ | ⟨_, hl, hd⟩
  · omega
  · rw [hd, passResult, if_neg (not_not_intro hl)]
    rfl
  · rw [hd, passResult, if_pos hl]
    rfl

/-- A chunk's turn is the step of the function: its effect and the end-of-pass test, or error entry. -/
theorem chunkTurn_step (s : State) (hr : s.dec.ready = true) :
    (∀ d, s.dec.step codecHash = .ok d → chunkTurn exec s = .next { s with dec := d.endPass }) ∧
    (∀ e, s.dec.step codecHash = .error e → chunkTurn exec s = .next { s with dec := s.dec.raise e }) := by
  rw [Dec.step, if_pos hr, chunkTurn]
  cases s.dec.fetch with
  | error e' =>
    refine ⟨nofun, ?_⟩
    rintro e ⟨⟩
    rfl
  | ok i =>
    refine ⟨fun d h => ?_, fun e h => ?_⟩
    · simp only [exec_eq, h]
      rfl
    · simp only [exec_eq, h, State.resolveDec, thenEndPass, (s.dec.raise e).endPass_of_not_busy nofun]

/-- From any state of a running `DEC_PASS`, the machine reaches the result of the function's loop, in at most as many steps
as pixels are expected. -/
theorem run_decSteps (s : State) (hp : s.inDecPass = true) (k : Nat) (d : Dec) (hb : d.status = .busy)
    (hk : d.n ≤ d.cnt + k) :
    ∃ j d', j ≤ k ∧ core.run j { s with dec := d.endPass } = .next { s with dec := d' } ∧
      d'.result = some (passResult (decSteps codecHash k d)) := by
  induction k generalizing d with
  | zero => exact ⟨0, _, le_rfl, rfl, d.endPass_result hb hk⟩
  | succ k ih =>
    by_cases hc : d.cnt < d.n
    · have hr : d.ready = true := (d.ready_iff).2 ⟨hb, hc⟩
      have hstep : step { s with dec := d } = chunkTurn exec { s with dec := d } := step_running _ (.inl hp) hb hc
      obtain ⟨hok, herr⟩ := chunkTurn_step { s with dec := d } hr
      rw [d.endPass_of_expecting hc, decSteps, if_pos hc]
      cases hs : d.step codecHash with
      | error e => exact ⟨1, _, by omega, core_run_succ 0 _ _ (hstep.trans (herr e hs)), rfl⟩
      | ok d₁ =>
        obtain ⟨i, hx⟩ := Dec.step_ok _ d d₁ hs
        obtain ⟨_, _, hstatus, _, _, hn, _, hcnt, _⟩ := Dec.exec_ok _ i d d₁ hx
        obtain ⟨j, d', hj, hrun, hresult⟩ := ih d₁ (hstatus.trans hb) (by omega)
        exact ⟨j + 1, d', by omega, (core_run_succ j _ _ (hstep.trans (hok d₁ hs))).trans hrun, hresult⟩
    · rw [decSteps_of_complete codecHash (k + 1) d (by omega)]
      exact ⟨0, _, by omega, rfl, d.endPass_result hb (by omega)⟩

end Sys2Proof.Machine
end

section
/-! The settled statements of the stream decoder (45_stream_decoder.md). -/

namespace Sys2Proof

open Sys2Proof.Machine

/-- Settles O3: the START is performed; its cache is the zero pixel in every slot, and its buffer reads back as loaded. -/
theorem decoderStartLoadsStream : Obligations.DecoderStartLoadsStream := by
  intro s inp n rest hh hp
  have hread : (decStart inp n).memRead 0 inp.length = some inp := by
    rw [Dec.memRead, if_pos (by simp), decStart_mem, memoryBytes_load]
  exact ⟨_, step_queued s _ rest hh hp, rfl, rfl, cacheLookup_replicate _, rfl, rfl, rfl, rfl, rfl, hread, rfl, rfl, rfl⟩

/-- Settles O7: DIFF is a storing chunk, and adding to a channel is addition modulo 256. -/
theorem diffAddsDeltasModulo256 : Obligations.DiffAddsDeltasModulo256 := by
  intro dr dg db s hdr hdg hdb hb hc
  obtain ⟨t, ht, heffect⟩ := exec_storing (.diff dr dg db) s _ hb hc ((diff_legal _ _ _).2 ⟨hdr, hdg, hdb⟩) rfl
  exact ⟨t, diffPixel s.dec.prev dr dg db, ht, add8_toNat _ _, add8_toNat _ _, add8_toNat _ _, rfl, heffect⟩

/-- Settles O8: LUMA is a storing chunk, and adding to a channel is addition modulo 256. -/
theorem lumaAddsGreenAndDifferencesModulo256 : Obligations.LumaAddsGreenAndDifferencesModulo256 := by
  intro dg drg dbg s hdg hdrg hdbg hb hc
  obtain ⟨t, ht, heffect⟩ :=
    exec_storing (.luma dg drg dbg) s _ hb hc ((luma_legal _ _ _).2 ⟨hdg, hdrg, hdbg⟩) rfl
  exact ⟨t, lumaPixel s.dec.prev dg drg dbg, ht, add8_toNat _ _, add8_toNat _ _, add8_toNat _ _, rfl, heffect⟩

/-- Settles O9: a RUN that fits appends its copies and passes its one byte. -/
theorem runRepeatsPreviousPixel : Obligations.RunRepeatsPreviousPixel := by
  intro count s h1 h2 hb hc hn
  obtain ⟨ht, hframe⟩ :=
    exec_of_ok (.run count) s _ (Dec.exec_run _ s.dec count ((s.dec.ready_iff).2 ⟨hb, hc⟩) h1 h2 hn)
  exact ⟨_, ht, by simp, by simp, by simp, by simp, fun i => by simp, hframe⟩

/-- Settles O10: bytes that parse are their chunk's own, from which the kind's parser gives the pixel the chunk stores. -/
theorem storingChunksStoreTheirParsersPixel : Obligations.StoringChunksStoreTheirParsersPixel := by
  intro s b0 payload i r hparse hstored hb hc
  obtain ⟨hv, hk⟩ := parseChunk_legal b0 payload i hparse
  have hbytes := chunkBytes_of_parseChunk b0 payload i hparse
  rw [← hk, ← hbytes, storedPixelParser_chunkBytes s.dec.prev i hv] at hstored
  obtain ⟨p, hp, hr⟩ := Option.map_eq_some_iff.1 hstored
  have hlen : i.length = payload.length + 1 := by rw [← chunkBytes_length, hbytes, List.length_cons]
  obtain ⟨t, ht, hprev, hout, hcnt, hbp, hcache, hframe⟩ := exec_storing i s p hb hc hv hp
  exact ⟨p, t, hr.symm, ht, hcache, hout, hcnt, hprev, hlen ▸ hbp, hframe⟩

/-- Settles O15: fewer bytes remain than the lead byte asks for, and a lead byte alone is a chunk of the other kinds. -/
theorem truncatedChunkRaises : Obligations.TruncatedChunkRaises := by
  intro s hq hb hc hbp hlen
  have hdecode : decode (remainingBytes s.dec) = .error (.format .truncatedChunk) := by
    rw [remainingBytes_of_lt s.dec hbp]
    exact decode_of_lt _ _ (by rw [List.length_cons, memoryBytes_length]; omega)
  exact ⟨step_running s hq hb hc ▸ chunkTurn_of_decode_error s _ hdecode, kind_of_one_lt_chunkLen _ (by omega)⟩

/-- Settles O16: a step ends in error entry, or in the end-of-pass test of a chunk that completed, which raises nothing but
left-over bytes. -/
theorem raisingStepChangesOnlyStatus : Obligations.RaisingStepChangesOnlyStatus := by
  intro s t e hq hb hc hstep hfault hne
  rw [step_running s hq hb hc] at hstep
  rcases chunkTurn_cases s t hb hc hstep with ⟨c, rfl, _⟩ | ⟨i, _, d, _, hx, rfl, _⟩
  · cases hfault
    rfl
  · obtain ⟨_, _, hstatus, _⟩ := Dec.exec_ok _ i s.dec d hx
    exact absurd (Dec.endPass_fault d e (hstatus.trans hb) hfault) hne

/-- Settles O19: the step is the chunk and then the end-of-pass test, whose three outcomes these are. -/
theorem passEndsAtExpectedCount : Obligations.PassEndsAtExpectedCount := by
  intro s t i rest hq hb hc hdecode hexec ht
  have hstep : step s = .next { t with dec := t.dec.endPass } := by
    rw [step_running s hq hb hc, chunkTurn_of_decode s i rest hdecode, hexec, thenEndPass]
  refine ⟨_, hstep, ?_⟩
  rcases t.dec.endPass_cases ht with ⟨hlt, hend⟩ | ⟨hle, hl, hend⟩ | ⟨hle, hl, hend⟩
  · rw [if_pos hlt, hend]
  · rw [if_neg (Nat.not_lt.2 hle), if_pos hl, hend]
  · rw [if_neg (Nat.not_lt.2 hle), if_neg hl, hend]
    rfl

/-- Settles O20: a step that does not raise is a chunk that completed, and the end-of-pass test moves no counter. -/
theorem stepAdvancesByOneChunk : Obligations.StepAdvancesByOneChunk := by
  intro s t hq hb hc hstep hrunning
  rw [step_running s hq hb hc] at hstep
  rcases chunkTurn_cases s t hb hc hstep with ⟨c, rfl, _⟩ | ⟨i, rest, d, hdecode, hx, rfl, hfits, hlen⟩
  · simp at hrunning
  · have hout := d.endPass_outPixels (fun e he => by simp [he] at hrunning)
    obtain ⟨_, _, _, _, _, _, hbp, hlt, hle, _⟩ := Dec.exec_ok _ i s.dec d hx
    obtain ⟨hcnt, hpixels⟩ := Dec.exec_pixels _ i s.dec d hx
    simp only [Dec.endPass_bp, Dec.endPass_cnt, hout]
    exact ⟨i, rest, hdecode, hlen ▸ hbp, by omega, hcnt, hlt, hle, hpixels⟩

/-- Settles O43: the loop raises only errors of a chunk, the end of the pass only left-over bytes. -/
theorem decodePassResultIsExact : Obligations.DecodePassResultIsExact := by
  intro H inp n
  cases hp : decPass H inp n with
  | ok ps => exact .inl ⟨ps, rfl, decPass_length H inp n ps hp⟩
  | error e =>
    refine .inr ?_
    rw [decPass_eq] at hp
    cases hs : decSteps H n (decStart inp n) with
    | error e' =>
      rw [hs] at hp
      cases hp
      rcases decSteps_error H n _ e rfl hs with rfl | rfl | rfl
      · exact ⟨_, rfl, .inl rfl⟩
      · exact ⟨_, rfl, .inr (.inl rfl)⟩
      · exact ⟨_, rfl, .inr (.inr (.inl rfl))⟩
    | ok d =>
      rw [hs, passResult] at hp
      split at hp <;> cases hp
      exact ⟨_, rfl, .inr (.inr (.inr rfl))⟩

/-- Settles O44: right after a START that expects their pixels the chunks run one after the other, and `DEC_PASS` of their
bytes runs exactly them. -/
theorem anyChunkSequenceDecodes : Obligations.AnyChunkSequenceDecodes := by
  intro H is hwf
  obtain ⟨d, hruns, hcnt⟩ := Dec.runs_of_legal H is (decStart (is.flatMap chunkBytes) (is.map pixelsOf).sum) rfl
    (fun i hi => (wellFormed_iff i).1 (hwf i hi)) (by simp)
  have hpass := decPass_of_runs H is _ d hruns (by simpa using hcnt)
  exact ⟨_, hpass, decPass_length H _ _ _ hpass⟩

/-- Settles O45: the START is one step, and each turn of the running pass is one turn of the function's loop. -/
theorem machineRunsDecodePass : Obligations.MachineRunsDecodePass := by
  intro s inp n rest hh hp
  have hstart : step s = .next { s with dec := (decStart inp n).endPass, host := rest, inDecPass := true } :=
    step_queued s _ rest hh hp
  obtain ⟨j, d, hj, hrun, hresult⟩ :=
    run_decSteps { s with host := rest, inDecPass := true } rfl n (decStart inp n) rfl (by simp)
  exact ⟨j + 1, _, by omega, (core_run_succ j s _ hstart).trans hrun, hresult, rfl, rfl⟩

/-- Settles O57: the operation is a chunk's turn in sequence, and error entry out of it. -/
theorem hostDecStepRunsOneChunk : Obligations.HostDecStepRunsOneChunk := by
  intro s rest hh hp
  refine ⟨fun i bytes hb hc hd => ?_, fun e hb hc hd => ?_, fun hout => ?_⟩
  · rw [step_decStep s rest hh hp hb hc]
    exact chunkTurn_of_decode { s with host := rest } i bytes hd
  · rw [step_decStep s rest hh hp hb hc]
    exact chunkTurn_of_decode_error { s with host := rest } e hd
  · have hr : ¬ s.dec.ready = true := by
      rw [Dec.ready_iff]
      rintro ⟨hb, hc⟩
      exact hout.elim (fun h => h hb) (fun h => Nat.not_lt.2 h hc)
    rw [step_queued s _ rest hh hp, perform, if_neg hr]
    exact resolveDec_error _ _

/-- Settles O4: RGB is a storing chunk. -/
theorem rgbCodesRawChannelsAndKeepsAlpha : Obligations.RgbCodesRawChannelsAndKeepsAlpha :=
  fun r g b s hb hc => exec_storing (.rgb r g b) s _ hb hc rfl rfl

/-- Settles O5: RGBA is a storing chunk. -/
theorem rgbaCodesAllRawChannels : Obligations.RgbaCodesAllRawChannels :=
  fun r g b a s hb hc => exec_storing (.rgba r g b a) s _ hb hc rfl rfl

/-- Settles O6: INDEX codes its slot's pixel without the store. -/
theorem indexReadsSlotWithoutStoring : Obligations.IndexReadsSlotWithoutStoring := by
  intro idx s hb hc
  obtain ⟨ht, hframe⟩ := exec_of_ok (.index idx) s _ (Dec.exec_index _ s.dec idx ((s.dec.ready_iff).2 ⟨hb, hc⟩))
  exact ⟨_, ht, rfl, rfl, rfl, rfl, fun _ => rfl, hframe⟩

/-- Settles O11: a RUN that does not fit is error entry. -/
theorem runPastExpectedCountRaises : Obligations.RunPastExpectedCountRaises := by
  intro count s h1 h2 hb hc hn
  rw [exec_eq, Dec.exec_run_past _ s.dec count ((s.dec.ready_iff).2 ⟨hb, hc⟩) h1 h2 hn]
  exact resolveDec_error _ _

/-- Settles O14: no byte remains, and nothing decodes from none. -/
theorem exhaustedStreamRaises : Obligations.ExhaustedStreamRaises := by
  intro s hq hb hc hl
  have hdecode : decode (remainingBytes s.dec) = .error (.format .streamExhausted) := by
    rw [remainingBytes_of_le s.dec hl, decode]
  rw [step_running s hq hb hc]
  exact chunkTurn_of_decode_error s _ hdecode

/-- Settles O18: the step is a chunk's turn, which runs what the remaining bytes decode to. -/
theorem stepRunsDecodedInstruction : Obligations.StepRunsDecodedInstruction := by
  intro s i rest hq hb hc hdecode
  rw [step_running s hq hb hc, chunkTurn_of_decode s i rest hdecode]

end Sys2Proof
end

section
/-! SUPPORT. A chunk out of sequence (60_exceptions.md R212), and when a step can be taken at all: neither the decoder's turn,
a host operation nor an `ENC_PASS`'s turn ever stops the machine. -/

namespace Sys2Proof.Machine

/-- A chunk issued out of sequence has no effect and raises `CV_SEQUENCE`, before its operands are looked at (log entry 17). -/
theorem Dec.issue_out_of_sequence (d : Dec) (i : Instr) (effect : Raises Dec) (hr : d.ready = false) :
    d.issue i effect = .error (.contract .sequence) := by
  simp [Dec.issue, hr]

/-- Every instruction is a chunk issued to the decoder, with an effect of its own. -/
theorem Dec.exec_eq_issue (H : Hash) (i : Instr) (d : Dec) : ∃ effect, d.exec H i = d.issue i effect := by
  cases i <;> exact ⟨_, rfl⟩

/-- So every instruction raises `CV_SEQUENCE` out of sequence. -/
theorem Dec.exec_out_of_sequence (H : Hash) (i : Instr) (d : Dec) (hr : d.ready = false) :
    d.exec H i = .error (.contract .sequence) := by
  obtain ⟨effect, hissue⟩ := Dec.exec_eq_issue H i d
  exact hissue.trans (d.issue_out_of_sequence i effect hr)

/-- Performing a host operation always gives a next state. -/
theorem perform_next (op : HostOp) (s : State) : ∃ t, perform exec op s = .next t := by
  cases op with
  | encStart | encPass | encCollect | decCollect => exact ⟨_, rfl⟩
  | decStart inp n | decPass inp n => exact ⟨_, startDecoder_eq s n _ _⟩
  | encStep p last =>
    obtain ⟨e, he, _⟩ := s.resolveEnc_next (s.enc.step codecHash p last)
    exact ⟨_, he⟩
  | decStep =>
    rw [perform]
    split
    · obtain ⟨d, hd⟩ := chunkTurn_next s
      exact ⟨_, hd⟩
    · exact ⟨_, rfl⟩

/-- No one can take the next turn: neither agent moves by itself, and nothing is queued. -/
def State.Stuck (s : State) : Prop := s.decoderMoves = false ∧ s.enc.canMove = false ∧ s.host = []

/-- A step is stuck or gives a next state. -/
theorem step_stuck_or_next (s : State) : s.Stuck ∨ ∃ t, step s = .next t := by
  cases hd : s.decoderMoves with
  | true =>
    obtain ⟨d, hlocal⟩ := decoderTurn_local s.dec
    exact .inr ⟨_, (step_decoder s hd).trans (hlocal s rfl)⟩
  | false =>
    cases hm : s.enc.canMove with
    | true =>
      obtain ⟨e, hlocal⟩ := encoderTurn_local s.enc
      exact .inr ⟨_, (step_encoder s hd hm).trans (hlocal s rfl)⟩
    | false =>
      cases hh : s.host with
      | nil => exact .inl ⟨hd, hm, hh⟩
      | cons op rest =>
        obtain ⟨t, ht⟩ := perform_next op { s with host := rest }
        exact .inr ⟨t, (step_queued s op rest hh (s.passRunning_of_still hd hm)).trans ht⟩

/-- The machine stops exactly when it is stuck. -/
theorem step_fault_iff (s : State) : (∃ f, step s = .fault f) ↔ s.Stuck := by
  constructor
  · rintro ⟨f, hf⟩
    refine (step_stuck_or_next s).resolve_right ?_
    rintro ⟨t, ht⟩
    cases hf.symm.trans ht
  · rintro ⟨hd, hm, hh⟩
    exact ⟨_, step_stuck s hd hm hh⟩

/-- What being stuck says of each agent. With nothing queued, a running decoder always moves. -/
theorem State.stuck_iff (s : State) :
    s.Stuck ↔ s.host = [] ∧ s.dec.status ≠ .busy ∧ (s.enc.status ≠ .busy ∨ s.enc.pixIn = []) := by
  have hdec (hh : s.host = []) : s.decoderMoves = false ↔ s.dec.status ≠ .busy := by
    rw [Bool.eq_false_iff, ne_eq, s.decoderMoves_iff]; simp [hh]
  have henc : s.enc.canMove = false ↔ s.enc.status ≠ .busy ∨ s.enc.pixIn = [] := by
    rw [Bool.eq_false_iff, ne_eq, s.enc.canMove_iff]; tauto
  constructor
  · rintro ⟨hd, hm, hh⟩
    exact ⟨hh, (hdec hh).1 hd, henc.1 hm⟩
  · rintro ⟨hh, hd, hm⟩
    exact ⟨(hdec hh).2 hd, henc.2 hm, hh⟩

end Sys2Proof.Machine
end

section
/-! The settled statements of the exceptions (60_exceptions.md). -/

namespace Sys2Proof

open Sys2Proof.Machine

/-- Settles O12: a decoder out of sequence is one that is not ready, and then the chunk is error entry. -/
theorem chunkOutOfSequenceRaises : Obligations.ChunkOutOfSequenceRaises := by
  intro i s hout
  have hr : s.dec.ready = false := by
    rw [Bool.eq_false_iff, ne_eq, s.dec.ready_iff]
    rintro ⟨hb, hc⟩
    exact hout.elim (fun h => h hb) hc.not_ge
  rw [exec_eq, Dec.exec_out_of_sequence codecHash i s.dec hr]
  exact resolveDec_error s _

/-- Settles O56: the machine stops exactly when it is stuck, and every other step gives a next state. -/
theorem machineStopsOnlyWhenNoAgentCanMove : Obligations.MachineStopsOnlyWhenNoAgentCanMove := by
  intro s
  refine ⟨(step_fault_iff s).trans s.stuck_iff, fun r hr => ?_⟩
  rcases step_stuck_or_next s with ⟨hd, hm, hh⟩ | ⟨t, ht⟩
  · cases (step_stuck s hd hm hh).symm.trans hr
  · cases ht.symm.trans hr

end Sys2Proof
end

section
/-! SUPPORT. Lockstep at every chunk (70_reset_and_hazards.md R247): every decoder state on the way through the encoder's
chunks is the encoder's after as many pixels. -/

namespace Sys2Proof.Machine

/-- `Dec.RunsWithin H P d is d'`: the chunks `is`, executed in order from `d`, raise nothing and end in `d'`, and `P` holds
of every decoder state on the way, both ends included. -/
inductive Dec.RunsWithin (H : Hash) (P : Dec → Prop) : Dec → List Instr → Dec → Prop
  | nil {d : Dec} : P d → Dec.RunsWithin H P d [] d
  | cons {d d₁ d' : Dec} {i : Instr} {is : List Instr} :
    P d → d.exec H i = .ok d₁ → Dec.RunsWithin H P d₁ is d' → Dec.RunsWithin H P d (i :: is) d'

theorem Dec.RunsWithin.runs {H : Hash} {P : Dec → Prop} {d d' : Dec} {is : List Instr}
    (h : Dec.RunsWithin H P d is d') : Dec.Runs H d is d' := by
  induction h with
  | nil => exact .nil _
  | cons _ hx _ ih => exact .cons hx ih

theorem Dec.RunsWithin.holds_at_end {H : Hash} {P : Dec → Prop} {d d' : Dec} {is : List Instr}
    (h : Dec.RunsWithin H P d is d') : P d' := by
  induction h with
  | nil hp => exact hp
  | cons _ _ _ ih => exact ih

theorem Dec.RunsWithin.append {H : Hash} {P : Dec → Prop} {d d₁ d' : Dec} {is js : List Instr}
    (h : Dec.RunsWithin H P d is d₁) (h' : Dec.RunsWithin H P d₁ js d') : Dec.RunsWithin H P d (is ++ js) d' := by
  induction h with
  | nil => exact h'
  | cons hp hx _ ih => exact .cons hp hx (ih h')

/-- On the bytes of chunks that complete the pass, any number of turns of the loop of `DEC_PASS` ends in a state on the way
through the chunks. -/
theorem Dec.RunsWithin.decSteps_holds {H : Hash} {P : Dec → Prop} {d d' : Dec} {is : List Instr}
    (h : Dec.RunsWithin H P d is d') (hb : remainingBytes d = is.flatMap chunkBytes) (hend : d'.n ≤ d'.cnt) (m : Nat) :
    ∃ dm, decSteps H m d = .ok dm ∧ P dm := by
  induction h generalizing m with
  | nil hp => exact ⟨_, decSteps_of_complete H m _ hend, hp⟩
  | @cons d d₁ d' i is hp hx _ ih =>
    cases m with
    | zero => exact ⟨d, rfl, hp⟩
    | succ m =>
      obtain ⟨hr, hv, _⟩ := Dec.exec_ok H i d d₁ hx
      have hs : d.step H = .ok d₁ := (Dec.step_of_remaining H d i _ hr hv hb).trans hx
      rw [decSteps, if_pos ((d.ready_iff).1 hr).2, hs]
      exact ih (Dec.exec_remaining H i d d₁ _ hx hb) hend m

/-- The decoder `d` is where the encoder is after `CNT` pixels of `ps`, and has produced exactly those pixels. -/
def Dec.Synced (H : Hash) (ps : List Pixel) (d : Dec) : Prop :=
  ∃ e, encSteps H d.cnt ps encStart = .ok e ∧ d.prev = e.prev ∧ d.cache = e.cache ∧ d.outPixels = ps.take d.cnt

theorem Dec.synced_start (H : Hash) (ps : List Pixel) (inp : List Byte) (n : Nat) : (decStart inp n).Synced H ps :=
  ⟨encStart, rfl, rfl, rfl, rfl⟩

/-- A decoder that misses no pixel of an open run has counted every pixel, so it is where an encoder with that `PREV` and
`CACHE` is. -/
theorem Lockstep.synced {H : Hash} {d : Dec} {e e₀ : Enc} {before rest : List Pixel} (h : Lockstep d e before)
    (h0 : e.run = 0) (hreached : encSteps H before.length (before ++ rest) encStart = .ok e₀) (hprev : e.prev = e₀.prev)
    (hcache : e.cache = e₀.cache) : d.Synced H (before ++ rest) := by
  have hcnt : d.cnt = before.length := by simpa [h0] using h.cnt_add_run
  have hpixels : d.outPixels = before := by simpa [h0] using h.pixels
  exact ⟨e₀, hcnt ▸ hreached, h.prev.trans hprev, h.cache.trans hcache, by rw [hpixels, hcnt, List.take_left]⟩

/-- The encoder's steps after those over the front of its pixels. -/
theorem encSteps_add (H : Hash) (before rest : List Pixel) (k : Nat) (e e' : Enc)
    (h : encSteps H before.length (before ++ rest) e = .ok e') :
    encSteps H (before.length + k) (before ++ rest) e = encSteps H k rest e' := by
  induction before generalizing e with
  | nil =>
    cases h
    simp
  | cons p before ih =>
    rw [List.length_cons, List.cons_append, encSteps] at h
    rw [List.length_cons, List.cons_append, Nat.add_right_comm, encSteps]
    cases hs : e.step H p (before ++ rest).isEmpty with
    | error err => rw [hs] at h; cases h
    | ok e₁ => rw [hs] at h; exact ih e₁ h

/-- The encoder `e` stands between two steps of its pass: the pixels `before` are coded, the pixels `rest` are to come. -/
structure Midpass (H : Hash) (before rest : List Pixel) (e : Enc) : Prop where
  reached : encSteps H before.length (before ++ rest) encStart = .ok e
  run_lt : e.run < 62
  busy : rest ≠ [] → e.status = .busy
  closed : rest = [] → e.run = 0

theorem midpass_start (H : Hash) (ps : List Pixel) : Midpass H [] ps encStart :=
  ⟨rfl, by simp, fun _ => rfl, fun _ => rfl⟩

/-- A step of the pass moves its pixel to the coded ones. -/
theorem Midpass.next {H : Hash} {before rest : List Pixel} {p : Pixel} {e e' : Enc}
    (h : Midpass H before (p :: rest) e) (hstep : e.step H p rest.isEmpty = .ok e') :
    Midpass H (before ++ [p]) rest e' := by
  obtain ⟨hrun, hlast, hbusy⟩ := lastPixelClosesRun H p rest.isEmpty e e' h.run_lt hstep
  refine ⟨?_, hrun, fun hr => hbusy (by simpa using hr), fun hr => (hlast (by simpa using hr)).1⟩
  have hone := encSteps_add H before (p :: rest) 1 encStart e h.reached
  simpa [encSteps, hstep] using hone

/-- The chunks `is` carry the pixels `qs` and hold at most one chunk, after which no run is open: a decoder that executes
them passes through no state in between. -/
structure Delivers (H : Hash) (e : Enc) (is : List Instr) (qs : List Pixel) (e' : Enc) : Prop
    extends Carries H e is qs e' where
  short : is = [] ∨ (∃ i, is = [i]) ∧ e'.run = 0

theorem Delivers.setStatus {H : Hash} {e e' : Enc} {is : List Instr} {qs : List Pixel} (h : Delivers H e is qs e')
    (st : Status) : Delivers H e is qs { e' with status := st } :=
  ⟨h.toCarries.setStatus st, h.short⟩

/-- Step 1 delivers its pixel with the run it closes, or holds it back. -/
theorem Enc.extendRun_delivers (H : Hash) (last : Bool) (e : Enc) (h : e.run < 62) :
    ∃ e' is, e.extendRun last = .ok e' ∧ Delivers H e is [e.prev] e' := by
  rw [Enc.extendRun_ok e last h]
  by_cases hf : e.run + 1 = 62 ∨ last = true
  · rw [if_pos hf]
    have hflush := carries_flush H { e with run := e.run + 1 } (by simp) (by simpa using h)
    exact ⟨_, _, rfl, (carries_extend H e).trans hflush, .inr ⟨⟨_, rfl⟩, rfl⟩⟩
  · rw [if_neg hf]
    exact ⟨_, _, rfl, carries_extend H e, .inl rfl⟩

/-- Step 2 delivers the open run, and leaves `PREV` and `CACHE` alone. -/
theorem Enc.closeRun_delivers (H : Hash) (e : Enc) (h : e.run < 62) :
    ∃ e₁ is, e.closeRun = .ok e₁ ∧ Delivers H e is [] e₁ ∧ e₁.run = 0 ∧ e₁.prev = e.prev ∧ e₁.cache = e.cache := by
  by_cases h0 : 0 < e.run
  · refine ⟨_, _, ?_, ⟨carries_flush H e h0 (by omega), .inr ⟨⟨_, rfl⟩, rfl⟩⟩, rfl, rfl, rfl⟩
    simp [Enc.closeRun_ok e h, h0]
  · exact ⟨e, [], by simp [Enc.closeRun, Enc.runOpen, h0], ⟨Carries.refl H e, .inl rfl⟩, by omega, rfl, rfl⟩

/-- The body of `ENC_STEP` is two deliveries: of the run that a differing pixel closes, which changes neither `PREV` nor
`CACHE`, and of the pixel. -/
theorem Enc.body_delivers (H : Hash) (p : Pixel) (last : Bool) (e : Enc) (h : e.run < 62) :
    ∃ e₁ e' is js, e.body H p last = .ok e' ∧ Delivers H e is [] e₁ ∧ e₁.prev = e.prev ∧ e₁.cache = e.cache ∧
      Delivers H e₁ js [p] e' := by
  unfold Enc.body
  by_cases hp : p = e.prev
  · obtain ⟨e', js, hext, hdeliver⟩ := Enc.extendRun_delivers H last e h
    rw [if_pos hp, hp]
    exact ⟨e, e', [], js, hext, ⟨Carries.refl H e, .inl rfl⟩, rfl, rfl, hdeliver⟩
  · obtain ⟨e₁, is, hclose, hdeliver, hrun, hprev, hcache⟩ := Enc.closeRun_delivers H e h
    rw [if_neg hp, hclose]
    exact ⟨e₁, _, is, _, Enc.codePixel_ok H p e₁, hdeliver, hprev, hcache, carries_pixel H e₁ p hrun,
      .inr ⟨⟨_, rfl⟩, hrun⟩⟩

/-- `ENC_STEP` of a running pass is the same two deliveries. -/
theorem Enc.step_delivers (H : Hash) (p : Pixel) (last : Bool) (e : Enc) (hs : e.status = .busy) (h : e.run < 62) :
    ∃ e₁ e' is js, e.step H p last = .ok e' ∧ Delivers H e is [] e₁ ∧ e₁.prev = e.prev ∧ e₁.cache = e.cache ∧
      Delivers H e₁ js [p] e' := by
  obtain ⟨e₁, e', is, js, hbody, hclose, hprev, hcache, hpixel⟩ := Enc.body_delivers H p last e h
  rw [Enc.step_busy H p last e e' hs hbody]
  cases last with
  | false => exact ⟨e₁, e', is, js, rfl, hclose, hprev, hcache, hpixel⟩
  | true => exact ⟨e₁, _, is, js, rfl, hclose, hprev, hcache, hpixel.setStatus .done⟩

/-- The chunks `is` carry the pixels `qs` that follow `before`, and keep a decoder that is where the encoder was in its pass
over `ps` so at every chunk. -/
structure Tracks (H : Hash) (ps before : List Pixel) (e : Enc) (is : List Instr) (qs : List Pixel) (e' : Enc) : Prop
    extends Carries H e is qs e' where
  tracked : ∀ d, Lockstep d e before → d.Synced H ps → before.length + qs.length ≤ d.n →
    ∃ d', Dec.RunsWithin H (Dec.Synced H ps) d is d' ∧ Lockstep d' e' (before ++ qs)

theorem Tracks.refl (H : Hash) (ps before : List Pixel) (e : Enc) : Tracks H ps before e [] [] e where
  toCarries := Carries.refl H e
  tracked d hd hsync _ := ⟨d, .nil hsync, by simpa using hd⟩

theorem Tracks.trans {H : Hash} {ps before qs rs : List Pixel} {e e₁ e' : Enc} {is js : List Instr}
    (h : Tracks H ps before e is qs e₁) (h' : Tracks H ps (before ++ qs) e₁ js rs e') :
    Tracks H ps before e (is ++ js) (qs ++ rs) e' where
  toCarries := h.toCarries.trans h'.toCarries
  tracked d hd hsync hn := by
    rw [List.length_append] at hn
    obtain ⟨d₁, hr, hd₁⟩ := h.tracked d hd hsync (by omega)
    obtain ⟨d', hr', hd'⟩ := h'.tracked d₁ hd₁ hr.holds_at_end (by rw [hr.runs.frame.1, List.length_append]; omega)
    exact ⟨d', hr.append hr', by simpa using hd'⟩

/-- Of a delivery only the end has to be looked at, and only when no run is open there. -/
theorem Delivers.tracks {H : Hash} {ps before qs : List Pixel} {e e' : Enc} {is : List Instr}
    (h : Delivers H e is qs e') (hend : ∀ d', Lockstep d' e' (before ++ qs) → e'.run = 0 → d'.Synced H ps) :
    Tracks H ps before e is qs e' where
  toCarries := h.toCarries
  tracked d hd hsync hn := by
    obtain ⟨d', hr, hd'⟩ := h.received d before hd hn
    refine ⟨d', ?_, hd'⟩
    rcases h.short with rfl | ⟨⟨i, rfl⟩, h0⟩
    · cases hr
      exact .nil hsync
    · obtain _ | ⟨hx, ⟨⟩⟩ := hr
      exact .cons hsync hx (.nil (hend d' hd' h0))

/-- A step of the pass tracks its pixel: after the closed run the decoder is where the encoder was before the step, and after
the pixel where it is now. -/
theorem Midpass.step_tracks {H : Hash} {before rest : List Pixel} {p : Pixel} {e : Enc}
    (h : Midpass H before (p :: rest) e) :
    ∃ e' is, e.step H p rest.isEmpty = .ok e' ∧ Tracks H (before ++ p :: rest) before e is [p] e' := by
  obtain ⟨e₁, e', is, js, hstep, hclose, hprev, hcache, hpixel⟩ :=
    Enc.step_delivers H p rest.isEmpty e (h.busy (by simp)) h.run_lt
  have hrun : Tracks H (before ++ p :: rest) before e is [] e₁ := by
    refine hclose.tracks fun d hd h0 => ?_
    rw [List.append_nil] at hd
    exact hd.synced h0 h.reached hprev hcache
  have hcode : Tracks H (before ++ p :: rest) (before ++ []) e₁ js [p] e' := by
    refine hpixel.tracks fun d hd h0 => ?_
    rw [List.append_nil] at hd
    rw [List.append_cons]
    exact hd.synced h0 (h.next hstep).reached rfl rfl
  exact ⟨e', is ++ js, hstep, hrun.trans hcode⟩

/-- The rest of a pass tracks the rest of its pixels, and leaves no run open. -/
theorem Midpass.encSteps_tracks {H : Hash} {before rest : List Pixel} {e : Enc} (h : Midpass H before rest e) :
    ∃ e' is, encSteps H rest.length rest e = .ok e' ∧ Tracks H (before ++ rest) before e is rest e' ∧ e'.run = 0 := by
  induction rest generalizing before e with
  | nil => exact ⟨e, [], rfl, Tracks.refl H _ before e, h.closed rfl⟩
  | cons p rest ih =>
    obtain ⟨e₁, is, hstep, htrack⟩ := h.step_tracks
    obtain ⟨e', js, hsteps, htrack', hrun⟩ := ih (h.next hstep)
    rw [← List.append_cons] at htrack'
    refine ⟨e', is ++ js, ?_, htrack.trans htrack', hrun⟩
    rw [List.length_cons, encSteps, hstep]
    exact hsteps

/-- `ENC_PASS` completes with the bytes of chunks that take every decoder right after a START through the encoder's states
to the last pixel. -/
theorem encPass_tracks (H : Hash) (ps : List Pixel) :
    ∃ is, encPass H ps = .ok (is.flatMap chunkBytes) ∧ ∀ inp,
      ∃ d, Dec.RunsWithin H (Dec.Synced H ps) (decStart inp ps.length) is d ∧ d.cnt = ps.length := by
  obtain ⟨e, is, hsteps, htrack, hrun⟩ := (midpass_start H ps).encSteps_tracks
  refine ⟨is, by simp [encPass, hsteps, htrack.emitted], fun inp => ?_⟩
  obtain ⟨d, hr, hd⟩ := htrack.tracked _ (lockstep_start inp ps.length) (Dec.synced_start H _ inp _) (by simp)
  exact ⟨d, hr, by simpa [hrun] using hd.cnt_add_run⟩

end Sys2Proof.Machine
end

section
/-! The settled statement of reset and hazards (70_reset_and_hazards.md). -/

namespace Sys2Proof

open Sys2Proof.Machine

/-- Settles O42: the loop of `DEC_PASS` on the encoder's bytes stops at one of the chunk boundaries, and at each of them the
decoder is where the encoder is after `CNT` pixels. -/
theorem decoderStaysInLockstepWithEncoder : Obligations.DecoderStaysInLockstepWithEncoder := by
  intro H ps m
  obtain ⟨is, hpass, htrack⟩ := encPass_tracks H ps
  obtain ⟨d', hruns, hcnt⟩ := htrack (is.flatMap chunkBytes)
  have hend : d'.n ≤ d'.cnt := by rw [hruns.runs.frame.1, hcnt, decStart_n]
  obtain ⟨d, hsteps, e, henc, hsync⟩ := hruns.decSteps_holds (remainingBytes_decStart _ _) hend m
  exact ⟨_, d, e, hpass, hsteps, henc, hsync⟩

end Sys2Proof
end
